-- ==== Sys2Proof/Word.lean ====
section
/-! DEFINITION. The words of the sample-sequencer: spec/00_scope.md R9 (bit numbering), R11 (every real-valued
quantity is a binary32 word), spec/30_encoding.md R61 (the 40-bit command word). Arithmetic on binary32 words
stands in Machine/Binary32.lean. -/

namespace Sys2Proof

/-- The bit pattern of an IEEE 754 binary32 value (00_scope.md R11). -/
abbrev F32 := BitVec 32

/-- A 32-bit architectural register as READ sees it (10_state.md R23). -/
abbrev Word32 := BitVec 32

/-- A 40-bit command word (30_encoding.md R61). -/
abbrev Cmd := BitVec 40

end Sys2Proof
end

