-- ==== Sys2Proof/Config.lean ====
section
/-! DEFINITION. The named parameters of spec/00_scope.md R8 that the spec leaves OPEN. Each is an opaque constant:
nothing in Lean can evaluate it, so a claim that mentions one holds whatever its value (Log 10). -/

namespace Sys2Proof.Config

/-- PITCH_TABLE[0..4]: the five base frequencies of the ROM (R8, 10_state.md R32, decision D24). -/
opaque pitchTable : Vector F32 5

/-- BLOCK_SIZE: samples per audio-callback invocation, at least 1 (R8, 30_encoding.md R68, decision D25). -/
opaque blockSize : PNat

/-- RATE_LO: low curve constant of the clock-rate control (R8, decision D32). -/
opaque rateLo : F32

/-- RATE_HI: high curve constant of the clock-rate control (R8, decision D32). -/
opaque rateHi : F32

/-- RATE_DEFAULT: the clock-rate word at startup (R8, 70_reset_and_hazards.md R141, R142). -/
opaque rateDefault : F32

/-- OFFSET_LO: low curve constant of the frequency-offset control (R8, decision D32). -/
opaque offsetLo : F32

/-- OFFSET_HI: high curve constant of the frequency-offset control (R8, decision D32). -/
opaque offsetHi : F32

/-- OFFSET_DEFAULT: the frequency-offset word at startup (R8, 70_reset_and_hazards.md R141, R142). -/
opaque offsetDefault : F32

/-- DRAW_SOURCE: the `n`-th value the index generator presents on `rnd_idx`, under no law (R8, 40_sample_step.md R91). -/
opaque drawSource : Nat → BitVec 3

/-- BRIDGE_BYTE_ORDER: the byte order of a bus bridge in front of the word ports (R8, 20_memory.md R47, R52, decision D20): for
a word of `n` bytes, which byte, counted from the least significant, stands at each byte address. No rule reads it, and no
definition of the model does; that it is any permutation is the model's choice (DESIGN CHOICE, Log 13). -/
opaque bridgeByteOrder : (n : Nat) → Equiv.Perm (Fin n)

end Sys2Proof.Config
end

