-- ==== Sys2Proof/Syntax.lean ====
section
/-! DEFINITION. The commands of the block: one constructor of `Instr` for each row of spec/opcode_table.json
(spec/30_encoding.md R63), the result of decoding a word (R64, R65), the register names of spec/10_state.md R23, and
the assembler's statements (R67 to R69). -/

namespace Sys2Proof

/-- A command. Every constructor keeps both operand fields of the word (R61), the ignored ones too (R65): an ignored
`sel` still reaches ERR_INFO.FIRST_SEL when the command raises an error (60_exceptions.md R121, R123; Log 7). -/
inductive Instr where
  /-- NOP, op 0x0 (41_init_and_control.md R100). -/
  | nop (sel : BitVec 4) (data : BitVec 32)
  /-- RESET, op 0x1 (41_init_and_control.md R102). -/
  | reset (sel : BitVec 4) (data : BitVec 32)
  /-- INIT, op 0x2; `data` is the sample rate (41_init_and_control.md R101). -/
  | init (sel : BitVec 4) (data : BitVec 32)
  /-- SAMPLE, op 0x3 (40_sample_step.md R75). -/
  | sample (sel : BitVec 4) (data : BitVec 32)
  /-- READ, op 0x4; `sel` is the register number (42_readback.md R110). -/
  | read (sel : BitVec 4) (data : BitVec 32)
  deriving DecidableEq, Repr

/-- What a 40-bit word stands for: one of the five commands, or a reserved opcode (30_encoding.md R65). -/
inductive Decoded where
  /-- the word is this command -/
  | instr (i : Instr)
  /-- the word's `op` is in 0x5..0xF (R64): no instruction, rejected by this name; the step raises ERR_OPCODE -/
  | reserved (op sel : BitVec 4)
  deriving DecidableEq, Repr

/-- The sixteen register names of the select map (10_state.md R23). -/
inductive RegName where
  | status | sampleRate | phase | phaseInc | pitchIndex | tickCount
  | voiceFreq0 | voiceFreq1 | voiceFreq2 | voiceFreq3
  | pitchTable0 | pitchTable1 | pitchTable2 | pitchTable3 | pitchTable4
  | errInfo
  deriving DecidableEq, Repr

/-- The `<rate>` of INIT and SETUP (30_encoding.md R67): a decimal literal or the bits themselves. -/
inductive RateLit where
  /-- the decimal `digits / 10 ^ scale`, negated where `neg` -/
  | decimal (neg : Bool) (digits scale : Nat)
  /-- `0x........`: the bit pattern -/
  | hex (bits : Nat)
  deriving DecidableEq, Repr

/-- The `<reg>` of READ (30_encoding.md R67): a name, or a number 0..15. -/
inductive RegRef where
  | name (r : RegName)
  | number (n : Nat)
  deriving DecidableEq, Repr

/-- A statement of the assembler: the five commands (30_encoding.md R67) and the pseudo-instructions BLOCK (R68) and
SETUP (R69). -/
inductive Asm where
  | nop
  | reset
  | init (rate : RateLit)
  | sample
  | read (reg : RegRef)
  | block (n : Nat)
  | setup (rate : RateLit)
  deriving DecidableEq, Repr

end Sys2Proof
end

