-- ==== Sys2Proof/WellFormed.lean ====
section
/-! DEFINITION. The checks on syntax. An `Instr` needs none: its field types are exactly the encoding's widths and
spec/30_encoding.md R65 lets an ignored field hold any value, so `Instr.wellFormed` holds of every term. What can be
ill-formed is what an assembler is given (R67, R68) and what it may emit (R67: unused fields are zero). -/

namespace Sys2Proof

/-- Every term of `Instr` is a well-formed command (30_encoding.md R61, R65). -/
def Instr.wellFormed : Instr → Bool
  | .nop _ _ => true
  | .reset _ _ => true
  | .init _ _ => true
  | .sample _ _ => true
  | .read _ _ => true

/-- The form the assembler writes: a field the command does not use is zero (30_encoding.md R65, R67). -/
def Instr.canonical : Instr → Bool
  | .nop sel data => sel == 0 && data == 0
  | .reset sel data => sel == 0 && data == 0
  | .init sel _ => sel == 0
  | .sample sel data => sel == 0 && data == 0
  | .read _ data => data == 0

/-- A hex rate fits in 32 bits; a decimal one is rounded to binary32 and needs no check (30_encoding.md R67). -/
def RateLit.wellFormed : RateLit → Bool
  | .decimal _ _ _ => true
  | .hex bits => decide (bits < 2 ^ 32)

/-- A register number is in 0..15 (30_encoding.md R67). -/
def RegRef.wellFormed : RegRef → Bool
  | .name _ => true
  | .number n => decide (n < 16)

/-- What R67 to R69 ask of an assembler statement: operands in range, and `n >= 1` for `BLOCK <n>` (R68). -/
def Asm.wellFormed : Asm → Bool
  | .nop => true
  | .reset => true
  | .init rate => rate.wellFormed
  | .sample => true
  | .read reg => reg.wellFormed
  | .block n => decide (1 ≤ n)
  | .setup rate => rate.wellFormed

end Sys2Proof
end

