-- ==== Sys2Proof/Decode.lean ====
section
/-! DEFINITION. Decoding and encoding of command words: spec/30_encoding.md R61 to R66. Decoding is total: a word is
one of the five commands, or reserved by name (R64, R65). The encoder is written from the same format (R61). -/

namespace Sys2Proof

/-- `op = cmd[39:36]` (30_encoding.md R61). -/
def opField (w : Cmd) : BitVec 4 := w.extractLsb' 36 4

/-- `sel = cmd[35:32]` (30_encoding.md R61, R62). -/
def selField (w : Cmd) : BitVec 4 := w.extractLsb' 32 4

/-- `data = cmd[31:0]` (30_encoding.md R61, R62). -/
def dataField (w : Cmd) : BitVec 32 := w.extractLsb' 0 32

/-- Operation code of NOP (30_encoding.md R63). -/
def opNop : BitVec 4 := 0x0#4

/-- Operation code of RESET (30_encoding.md R63). -/
def opReset : BitVec 4 := 0x1#4

/-- Operation code of INIT (30_encoding.md R63). -/
def opInit : BitVec 4 := 0x2#4

/-- Operation code of SAMPLE (30_encoding.md R63). -/
def opSample : BitVec 4 := 0x3#4

/-- Operation code of READ (30_encoding.md R63). -/
def opRead : BitVec 4 := 0x4#4

/-- The command is selected by `op` alone (30_encoding.md R63); `op` in 0x5..0xF is reserved (R64). -/
def decode (w : Cmd) : Decoded :=
  if opField w = opNop then .instr (.nop (selField w) (dataField w))
  else if opField w = opReset then .instr (.reset (selField w) (dataField w))
  else if opField w = opInit then .instr (.init (selField w) (dataField w))
  else if opField w = opSample then .instr (.sample (selField w) (dataField w))
  else if opField w = opRead then .instr (.read (selField w) (dataField w))
  else .reserved (opField w) (selField w)

/-- The `op` of a command (30_encoding.md R63). -/
def Instr.opcode : Instr → BitVec 4
  | .nop _ _ => opNop
  | .reset _ _ => opReset
  | .init _ _ => opInit
  | .sample _ _ => opSample
  | .read _ _ => opRead

/-- The `sel` field of a command's word. -/
def Instr.sel : Instr → BitVec 4
  | .nop sel _ => sel
  | .reset sel _ => sel
  | .init sel _ => sel
  | .sample sel _ => sel
  | .read sel _ => sel

/-- The `data` field of a command's word. -/
def Instr.data : Instr → BitVec 32
  | .nop _ data => data
  | .reset _ data => data
  | .init _ data => data
  | .sample _ data => data
  | .read _ data => data

/-- The CMD format: `op` in 39:36, `sel` in 35:32, `data` in 31:0 (30_encoding.md R61). -/
def packCmd (op sel : BitVec 4) (data : BitVec 32) : Cmd := op ++ sel ++ data

/-- The 40-bit word of a command (30_encoding.md R61, R63). -/
def encode (i : Instr) : Cmd := packCmd i.opcode i.sel i.data

/-- The number of a register in the select map (10_state.md R23). -/
def RegName.number : RegName → BitVec 4
  | .status => 0#4
  | .sampleRate => 1#4
  | .phase => 2#4
  | .phaseInc => 3#4
  | .pitchIndex => 4#4
  | .tickCount => 5#4
  | .voiceFreq0 => 6#4
  | .voiceFreq1 => 7#4
  | .voiceFreq2 => 8#4
  | .voiceFreq3 => 9#4
  | .pitchTable0 => 10#4
  | .pitchTable1 => 11#4
  | .pitchTable2 => 12#4
  | .pitchTable3 => 13#4
  | .pitchTable4 => 14#4
  | .errInfo => 15#4

/-- The register a `sel` value names: all sixteen values name one (10_state.md R23). -/
def regOfSel (sel : BitVec 4) : RegName :=
  match sel.toNat with
  | 0 => .status
  | 1 => .sampleRate
  | 2 => .phase
  | 3 => .phaseInc
  | 4 => .pitchIndex
  | 5 => .tickCount
  | 6 => .voiceFreq0
  | 7 => .voiceFreq1
  | 8 => .voiceFreq2
  | 9 => .voiceFreq3
  | 10 => .pitchTable0
  | 11 => .pitchTable1
  | 12 => .pitchTable2
  | 13 => .pitchTable3
  | 14 => .pitchTable4
  | _ => .errInfo

/-- The command word among the low `nbits` bits of `w`; every bit from `nbits` up is 0. A command is one 40-bit word
(30_encoding.md R66), so no byte order enters (20_memory.md R47). -/
def tableWord (nbits w : Nat) : Cmd := BitVec.ofNat 40 (w % 2 ^ nbits)

/-- The instruction the decoder reads from the table word; none where the word is reserved. -/
def decodeTableWord (nbits w : Nat) : Option Instr :=
  match decode (tableWord nbits w) with
  | .instr i => some i
  | .reserved _ _ => none

end Sys2Proof
end

