-- ==== Sys2Proof/Machine/State.lean ====
section
/-! DEFINITION. The state of the block. `Regs` is the record of spec/10_state.md R42, the block's own registers;
`State` adds the Pitch Table ROM (R32), the input ports (R39) and the values the environment drives on them at the
coming rising edges. A register is held as the bits the spec implements; its reserved bits are zeros that the read
composes (Log 6). -/

namespace Sys2Proof.Machine

/-- The first-error record behind ERR_INFO (10_state.md R33): its three fields. Bits 3 and 31:12 of the register are
reserved and read as zero (`errInfoWord`). -/
structure ErrInfo where
  /-- FIRST_CODE, bits 2:0: 0 = no error since reset, 1..5 as in 60_exceptions.md R121 -/
  code : BitVec 3
  /-- FIRST_OP, bits 7:4: `op` of the command that raised the first error -/
  op : BitVec 4
  /-- FIRST_SEL, bits 11:8: `sel` of that command -/
  sel : BitVec 4
  deriving DecidableEq, Repr

/-- The block's registers (10_state.md R42, R23 to R34). -/
structure Regs where
  /-- STATUS bits 7:0 (R24); bits 31:8 are hardwired to zero -/
  status : BitVec 8
  /-- SAMPLE_RATE (R25) -/
  sampleRate : F32
  /-- PHASE (R26) -/
  phase : F32
  /-- PHASE_INC (R27) -/
  phaseInc : F32
  /-- PITCH_INDEX bits 2:0 (R28); bits 31:3 read as zero -/
  pitchIndex : BitVec 3
  /-- TICK_COUNT (R29) -/
  tickCount : BitVec 32
  /-- VOICE_FREQ0..3 (R30) -/
  voiceFreq : Vector F32 4
  /-- ERR_INFO (R33) -/
  errInfo : ErrInfo
  /-- RD_DATA (R34) -/
  rdData : BitVec 32
  deriving DecidableEq, Repr

/-- The values on the input ports at one rising edge of `clk` (10_state.md R39). -/
structure Ports where
  /-- `rst_n`: synchronous reset, active low -/
  rstN : Bool
  /-- `cmd_valid`: a command is presented at this edge -/
  cmdValid : Bool
  /-- `cmd`: the command word -/
  cmd : Cmd
  /-- `clock_rate`: binary32 parameter word -/
  clockRate : F32
  /-- `freq_offset`: binary32 parameter word -/
  freqOffset : F32
  /-- `rnd_idx`: the pitch-class draw -/
  rndIdx : BitVec 3
  deriving DecidableEq, Repr

/-- The machine: the block's registers and ROM, and the environment at its input ports. -/
structure State where
  /-- the block's registers (10_state.md R42) -/
  regs : Regs
  /-- PITCH_TABLE0..4, the read-only ROM (10_state.md R32); no step writes it (Log 4) -/
  rom : Vector F32 5
  /-- the MODEL's field: the input ports as they stand at the edge being executed (10_state.md R42, Inputs) -/
  ports : Ports
  /-- the MODEL's field: what the environment drives at the coming rising edges, oldest first (Log 1) -/
  edges : List Ports
  deriving DecidableEq, Repr

/-- Reasons to stop with a fault: there is none. The block has no trap, and an error is a sticky bit after which the
next command is accepted (60_exceptions.md R120, R127), so no step stops (Log 5). Safe: nothing is cut short. -/
inductive Fault where
  deriving DecidableEq, Repr

/-- Reasons to refuse. -/
inductive Refusal where
  /-- exec would answer it for an instruction without a meaning; every instruction has one, so no step answers it. Safe. -/
  | notModelled (mnemonic : String)
  deriving DecidableEq, Repr

/-- The reset values of the registers (10_state.md R23, R24, R31, R33, R34; 70_reset_and_hazards.md R140). -/
def Regs.reset : Regs where
  status := 0#8
  sampleRate := 0#32
  phase := 0#32
  phaseInc := 0#32
  pitchIndex := 0#3
  tickCount := 0#32
  voiceFreq := #v[0#32, 0#32, 0#32, 0#32]
  errInfo := { code := 0#3, op := 0#4, sel := 0#4 }
  rdData := 0#32

/-- The input ports before any edge: no command, reset released, the startup defaults on the parameter ports
(70_reset_and_hazards.md R142) and DRAW_SOURCE's first draw. DESIGN CHOICE (Log 3): no step reads it. -/
def Ports.idle : Ports where
  rstN := true
  cmdValid := false
  cmd := 0#40
  clockRate := Config.rateDefault
  freqOffset := Config.offsetDefault
  rndIdx := Config.drawSource 0

/-- The machine right after reset (70_reset_and_hazards.md R140): every register at its reset value, the ROM as built,
and no coming edge: a run from reset is a run of whatever edges the environment then drives (Log 2). -/
def State.reset : State where
  regs := Regs.reset
  rom := Config.pitchTable
  ports := Ports.idle
  edges := []

end Sys2Proof.Machine
end

