-- ==== Sys2Proof/Machine/Binary32.lean ====
section
/-! DEFINITION. IEEE 754 binary32 arithmetic as spec/00_scope.md R10 and R12 define it: the exact real result, rounded
to nearest with ties to even; subnormals kept; overflow to infinity; one canonical NaN; no exception flag.

Every finite binary32 value is a whole number of units of 2^-149, the smallest subnormal, so the exact results are
integers (a sum) or a quotient of two naturals (a division), and rounding is done once, in `roundUnits`. The layout is
spec/20_memory.md R47: sign in bit 31, exponent in 30:23, fraction in 22:0. -/

namespace Sys2Proof.Machine

/-- The sign, bit 31 (20_memory.md R47). -/
def signBit (a : F32) : Bool := decide (2 ^ 31 ≤ a.toNat)

/-- The 31 bits below the sign: exponent and fraction as one number (20_memory.md R47). -/
def magBits (a : F32) : Nat := a.toNat % 2 ^ 31

/-- The magnitude bits of an infinity: exponent 255, fraction 0. -/
def infBits : Nat := 0x7F800000

/-- A NaN: exponent 255 and a nonzero fraction. -/
def isNaN32 (a : F32) : Bool := decide (infBits < magBits a)

/-- An infinity of either sign. -/
def isInf32 (a : F32) : Bool := decide (magBits a = infBits)

/-- `finite32(a)`: neither an infinity nor a NaN (00_scope.md R10). -/
def finite32 (a : F32) : Bool := decide (magBits a < infBits)

/-- The canonical quiet NaN (00_scope.md R12). -/
def nan32 : F32 := 0x7FC00000#32

/-- `+0.0`. -/
def zero32 : F32 := 0x00000000#32

/-- `1.0`. -/
def one32 : F32 := 0x3F800000#32

/-- The magnitude with bits `b`, in units of 2^-149: fraction alone where the exponent field is 0 (a subnormal), else the
fraction with its leading one, scaled (20_memory.md R47). -/
def unitsOf (b : Nat) : Nat :=
  if b / 2 ^ 23 = 0 then b else (2 ^ 23 + b % 2 ^ 23) * 2 ^ (b / 2 ^ 23 - 1)

/-- The value of `a` in units of 2^-149. For a finite `a` it is exact; an infinity stands beyond every finite value. -/
def units32 (a : F32) : Int :=
  if signBit a then -(unitsOf (magBits a) : Int) else (unitsOf (magBits a) : Int)

/-- `num / den` rounded to the nearest whole number, ties to even. -/
def nearestEven (num den : Nat) : Nat :=
  if 2 * (num % den) < den then num / den
  else if 2 * (num % den) = den ∧ num / den % 2 = 0 then num / den
  else num / den + 1

/-- The power of two of the last place of the binade that holds `num / den` units. -/
def placeOf (num den : Nat) : Nat := Nat.log2 (num / den) - 23

/-- The magnitude bits of `num / den` units rounded to nearest, ties to even; a result too large becomes infinity
(00_scope.md R12). A significand that rounds up to 2^24 carries into the exponent field by itself. -/
def roundUnits (num den : Nat) : Nat :=
  min (placeOf num den * 2 ^ 23 + nearestEven num (den * 2 ^ placeOf num den)) infBits

/-- The word with sign `neg` and magnitude bits `b`. -/
def pack32 (neg : Bool) (b : Nat) : F32 := BitVec.ofNat 32 ((if neg then 2 ^ 31 else 0) + b)

/-- The value with its sign turned. -/
def neg32 (a : F32) : F32 := a ^^^ 0x80000000#32

/-- `add32(a,b)` (00_scope.md R10, R12). `x - x` gives `+0.0`, and only `(-0.0) + (-0.0)` gives `-0.0`; the cases with an
infinity are the IEEE defaults R12 takes (Log 9). -/
def add32 (a b : F32) : F32 :=
  if isNaN32 a || isNaN32 b then nan32
  else if isInf32 a then (if isInf32 b && (signBit a != signBit b) then nan32 else a)
  else if isInf32 b then b
  else if units32 a + units32 b = 0 then pack32 (signBit a && signBit b) 0
  else pack32 (decide (units32 a + units32 b < 0)) (roundUnits (units32 a + units32 b).natAbs 1)

/-- `sub32(a,b)` (00_scope.md R10, R12). -/
def sub32 (a b : F32) : F32 := add32 a (neg32 b)

/-- `div32(a,b)` (00_scope.md R10, R12): a finite nonzero value over a zero is an infinity of the XOR sign, `0/0` is NaN;
the cases with an infinity are the IEEE defaults R12 takes (Log 9). -/
def div32 (a b : F32) : F32 :=
  if isNaN32 a || isNaN32 b then nan32
  else if isInf32 a then (if isInf32 b then nan32 else pack32 (signBit a != signBit b) infBits)
  else if isInf32 b then pack32 (signBit a != signBit b) 0
  else if magBits b = 0 then
    (if magBits a = 0 then nan32 else pack32 (signBit a != signBit b) infBits)
  else pack32 (signBit a != signBit b) (roundUnits (unitsOf (magBits a) * 2 ^ 149) (unitsOf (magBits b)))

/-- `ge32(a,b)`: ordered, false on a NaN, the two zeros equal (00_scope.md R10). -/
def ge32 (a b : F32) : Bool := !isNaN32 a && !isNaN32 b && decide (units32 b ≤ units32 a)

/-- `lt32(a,b)`: ordered, false on a NaN, the two zeros equal (00_scope.md R10). -/
def lt32 (a b : F32) : Bool := !isNaN32 a && !isNaN32 b && decide (units32 a < units32 b)

end Sys2Proof.Machine
end

