-- ==== Sys2Proof/Machine/Flags.lean ====
section
/-! DEFINITION. The condition flags: the eight implemented bits of STATUS (spec/10_state.md R22, R24) and the five error
causes with their codes and sticky bits (spec/60_exceptions.md R121). -/

namespace Sys2Proof.Machine

/-- The named bits of STATUS (10_state.md R24). -/
inductive Flag where
  | initDone | freqValid | tick | errOpcode | errRate | errDraw | errSeq | errFreq
  deriving DecidableEq, Repr

/-- The bit of STATUS that holds a flag (10_state.md R24). -/
def Flag.bit : Flag → Nat
  | .initDone => 0
  | .freqValid => 1
  | .tick => 2
  | .errOpcode => 3
  | .errRate => 4
  | .errDraw => 5
  | .errSeq => 6
  | .errFreq => 7

/-- `R.STATUS.<flag>` read. -/
def getFlag (st : BitVec 8) (f : Flag) : Bool := st.getLsbD f.bit

/-- `R.STATUS.<flag> <- v`: the other bits keep their values. -/
def putFlag (st : BitVec 8) (f : Flag) (v : Bool) : BitVec 8 :=
  if v then st ||| 1#8 <<< f.bit else st &&& ~~~(1#8 <<< f.bit)

/-- The error causes (60_exceptions.md R121). -/
inductive ErrKind where
  | opcode | rate | draw | seq | freq
  deriving DecidableEq, Repr

/-- ERR_INFO.FIRST_CODE of a cause (60_exceptions.md R121). -/
def ErrKind.code : ErrKind → BitVec 3
  | .opcode => 1#3
  | .rate => 2#3
  | .draw => 3#3
  | .seq => 4#3
  | .freq => 5#3

/-- The sticky STATUS bit of a cause (60_exceptions.md R121). -/
def ErrKind.flag : ErrKind → Flag
  | .opcode => .errOpcode
  | .rate => .errRate
  | .draw => .errDraw
  | .seq => .errSeq
  | .freq => .errFreq

/-- `OR(STATUS[7:3])` (60_exceptions.md R125): some error has been raised since reset. -/
def anyError (st : BitVec 8) : Bool :=
  getFlag st .errOpcode || getFlag st .errRate || getFlag st .errDraw || getFlag st .errSeq || getFlag st .errFreq

/-- STATUS as a 32-bit word: bits 31:8 are hardwired to zero (10_state.md R24). -/
def statusWord (st : BitVec 8) : Word32 := st.setWidth 32

end Sys2Proof.Machine
end

