-- ==== Sys2Proof/Machine/Ops.lean ====
section
/-! DEFINITION. The named operations over the state: writing a flag, raising an error (the block's one form of exception:
spec/60_exceptions.md R120, R123), resetting (spec/70_reset_and_hazards.md R140), reading the ROM (spec/20_memory.md R46),
accepting an edge's port values, and presenting a command. There is no trap to enter or return from (R127). -/

namespace Sys2Proof.Machine

/-- `R.STATUS.<flag> <- v`. -/
def Regs.setFlag (r : Regs) (f : Flag) (v : Bool) : Regs := { r with status := putFlag r.status f v }

/-- The record of the first error: written only while FIRST_CODE = 0 (60_exceptions.md R123). -/
def recordFirst (e : ErrKind) (op sel : BitVec 4) (info : ErrInfo) : ErrInfo :=
  if info.code = 0#3 then { code := e.code, op := op, sel := sel } else info

/-- `raise ERR_X` by a command with fields `op` and `sel` (60_exceptions.md R123): the sticky bit is set, and the error is
recorded if it is the first since reset. -/
def raise (e : ErrKind) (op sel : BitVec 4) (r : Regs) : Regs :=
  { r with status := putFlag r.status e.flag true, errInfo := recordFirst e op sel r.errInfo }

/-- The state with other registers: the ROM and the environment as they were. -/
def State.withRegs (s : State) (r : Regs) : State := { s with regs := r }

/-- What `rst_n = 0` and RESET do: every register takes its reset value; the ROM is unaffected
(70_reset_and_hazards.md R140, 41_init_and_control.md R102). -/
def State.resetBlock (s : State) : State := s.withRegs Regs.reset

/-- `PitchTable(i)` for `0 <= i <= 4` (20_memory.md R46). -/
def pitchTableAt (rom : Vector F32 5) (i : Fin 5) : F32 := rom[i]

/-- A rising edge comes with the values `p` on the input ports, sampled whole (20_memory.md R49). -/
def State.acceptEdge (s : State) (p : Ports) (rest : List Ports) : State := { s with ports := p, edges := rest }

/-- The port values `p` with the command `w` presented and reset released: an accepting edge (30_encoding.md R60). -/
def Ports.presenting (p : Ports) (w : Cmd) : Ports := { p with rstN := true, cmdValid := true, cmd := w }

/-- The environment presents `w` at the next rising edge, with the parameter words and the draw it would have driven there
(with no coming edge, those now on the ports). -/
def presentCommand (s : State) (w : Cmd) : State :=
  match s.edges with
  | [] => { s with edges := [s.ports.presenting w] }
  | p :: rest => { s with edges := p.presenting w :: rest }

end Sys2Proof.Machine
end

