-- ==== Sys2Proof/Machine/Operands.lean ====
section
/-! DEFINITION. The operand forms: the register READ selects (spec/10_state.md R23, spec/42_readback.md R110), the immediate
of INIT (spec/41_init_and_control.md R101), and what SAMPLE computes from its port operands before it writes anything
(spec/40_sample_step.md R77, R78, R82, R83). -/

namespace Sys2Proof.Machine

/-- ERR_INFO as a 32-bit word: `zext_32({ sel, op, 0b0, code })` (60_exceptions.md R123, 10_state.md R33). -/
def errInfoWord (e : ErrInfo) : Word32 := (e.sel ++ e.op ++ 0#1 ++ e.code).setWidth 32

/-- PITCH_INDEX as a 32-bit word: `zext_32(PITCH_INDEX[2:0])` (42_readback.md R110). -/
def pitchIndexWord (i : BitVec 3) : Word32 := i.setWidth 32

/-- The 32-bit value of a register by name (10_state.md R23). -/
def regValue (rom : Vector F32 5) (r : Regs) : RegName → Word32
  | .status => statusWord r.status
  | .sampleRate => r.sampleRate
  | .phase => r.phase
  | .phaseInc => r.phaseInc
  | .pitchIndex => pitchIndexWord r.pitchIndex
  | .tickCount => r.tickCount
  | .voiceFreq0 => r.voiceFreq[0]
  | .voiceFreq1 => r.voiceFreq[1]
  | .voiceFreq2 => r.voiceFreq[2]
  | .voiceFreq3 => r.voiceFreq[3]
  | .pitchTable0 => rom[0]
  | .pitchTable1 => rom[1]
  | .pitchTable2 => rom[2]
  | .pitchTable3 => rom[3]
  | .pitchTable4 => rom[4]
  | .errInfo => errInfoWord r.errInfo

/-- `reg32(sel)` (42_readback.md R110): every `sel` names a register. -/
def reg32 (rom : Vector F32 5) (r : Regs) (sel : BitVec 4) : Word32 := regValue rom r (regOfSel sel)

/-- INIT's domain check: `finite32(sr) and lt32(+0.0, sr)` (41_init_and_control.md R101). -/
def rateLoadable (sr : F32) : Bool := finite32 sr && lt32 zero32 sr

/-- SAMPLE's increment: `div32(In.clock_rate, R.SAMPLE_RATE)` (40_sample_step.md R77). -/
def increment (p : Ports) (r : Regs) : F32 := div32 p.clockRate r.sampleRate

/-- The rate domain check: `ge32(inc, +0.0) and lt32(inc, 1.0)` (40_sample_step.md R78). -/
def incAdmitted (inc : F32) : Bool := ge32 inc zero32 && lt32 inc one32

/-- `110.0` (40_sample_step.md R82, 00_scope.md R7). -/
def f110 : F32 := 0x42DC0000#32

/-- `220.0` (40_sample_step.md R82, 00_scope.md R7). -/
def f220 : F32 := 0x435C0000#32

/-- The four voice frequencies of a table entry `t` and an offset `o`, left to right, each operation rounded
(40_sample_step.md R82). -/
def voiceFreqs (t o : F32) : Vector F32 4 :=
  #v[add32 t o, add32 (add32 t f110) o, add32 (sub32 t f110) o, add32 (add32 t f220) o]

/-- The finiteness check's condition (40_sample_step.md R83). -/
def allFinite (v : Vector F32 4) : Bool := finite32 v[0] && finite32 v[1] && finite32 v[2] && finite32 v[3]

end Sys2Proof.Machine
end

