-- ==== Sys2Proof/Machine/Control.lean ====
section
/-! DEFINITION. NOP, RESET and INIT (spec/41_init_and_control.md R100 to R102), and what a reserved word does
(spec/30_encoding.md R64). -/

namespace Sys2Proof.Machine

/-- NOP (41_init_and_control.md R100): no register changes. -/
def execNop (_sel : BitVec 4) (_data : BitVec 32) (s : State) : Host.Outcome State Fault Refusal :=
  .next s

/-- RESET (41_init_and_control.md R102): the state `rst_n = 0` produces; the ROM is unchanged. -/
def execReset (_sel : BitVec 4) (_data : BitVec 32) (s : State) : Host.Outcome State Fault Refusal :=
  .next s.resetBlock

/-- INIT on the registers (41_init_and_control.md R101): TICK is cleared whether `data` is valid or not. -/
def initRegs (sel : BitVec 4) (data : F32) (r : Regs) : Regs :=
  if rateLoadable data then
    { (r.setFlag .tick false).setFlag .initDone true with sampleRate := data, phase := zero32, phaseInc := zero32 }
  else raise .seq opInit sel (r.setFlag .tick false)

/-- INIT (41_init_and_control.md R101). -/
def execInit (sel : BitVec 4) (data : BitVec 32) (s : State) : Host.Outcome State Fault Refusal :=
  .next (s.withRegs (initRegs sel data s.regs))

/-- A word whose `op` is reserved (30_encoding.md R64): nothing but `raise ERR_OPCODE`. -/
def execReserved (op sel : BitVec 4) (s : State) : Host.Outcome State Fault Refusal :=
  .next (s.withRegs (raise .opcode op sel s.regs))

end Sys2Proof.Machine
end

