-- ==== Sys2Proof/Machine/Readback.lean ====
section
/-! DEFINITION. READ (spec/42_readback.md R110, R111). -/

namespace Sys2Proof.Machine

/-- READ (42_readback.md R110): RD_DATA takes the selected register; nothing else changes (20_memory.md R51). -/
def execRead (sel : BitVec 4) (_data : BitVec 32) (s : State) : Host.Outcome State Fault Refusal :=
  .next (s.withRegs { s.regs with rdData := reg32 s.rom s.regs sel })

end Sys2Proof.Machine
end

