-- ==== Sys2Proof/Machine/Sample.lean ====
section
/-! DEFINITION. SAMPLE, the per-sample step (spec/40_sample_step.md R75 to R84). -/

namespace Sys2Proof.Machine

/-- Steps 7 and 8 (40_sample_step.md R82, R83), after a valid draw `d`: the index and the four frequencies are written and
FREQ_VALID is set; a frequency that is not finite raises ERR_FREQ and stands. -/
def tickVoices (rom : Vector F32 5) (offset : F32) (sel : BitVec 4) (d : Fin 5) (r : Regs) : Regs :=
  let v := voiceFreqs (pitchTableAt rom d) offset
  let r := { r.setFlag .freqValid true with pitchIndex := BitVec.ofNat 3 d.val, voiceFreq := v }
  if allFinite v then r else raise .freq opSample sel r

/-- The rest of step 5 and step 6 (40_sample_step.md R80, R81) on a tick: the tick is counted, and a draw above 4 raises
ERR_DRAW. -/
def tickRegs (rom : Vector F32 5) (p : Ports) (sel : BitVec 4) (r : Regs) : Regs :=
  let r := { r with tickCount := r.tickCount + 1#32 }
  if h : p.rndIdx.toNat < 5 then tickVoices rom p.freqOffset sel ⟨p.rndIdx.toNat, h⟩ r
  else raise .draw opSample sel r

/-- The phase after the advance, before the wrap: `add32(R.PHASE, inc)` (40_sample_step.md R79). -/
def phaseSum (inc : F32) (r : Regs) : F32 := add32 r.phase inc

/-- Whether the advance ticks: `ge32(p, 1.0)` (40_sample_step.md R79). -/
def sampleTicks (inc : F32) (r : Regs) : Bool := ge32 (phaseSum inc r) one32

/-- The phase after the wrap (40_sample_step.md R79): at most one period is removed. -/
def wrappedPhase (inc : F32) (r : Regs) : F32 :=
  if sampleTicks inc r then sub32 (phaseSum inc r) one32 else phaseSum inc r

/-- Steps 3 (accepted), 4 and 5 (40_sample_step.md R78 to R80): PHASE_INC, PHASE and TICK. -/
def advanceRegs (inc : F32) (r : Regs) : Regs :=
  { r.setFlag .tick (sampleTicks inc r) with phaseInc := inc, phase := wrappedPhase inc r }

/-- SAMPLE on the registers (40_sample_step.md R84). -/
def sampleRegs (rom : Vector F32 5) (p : Ports) (sel : BitVec 4) (r : Regs) : Regs :=
  if getFlag r.status .initDone = false then raise .seq opSample sel (r.setFlag .tick false)
  else if incAdmitted (increment p r) = false then raise .rate opSample sel (r.setFlag .tick false)
  else if sampleTicks (increment p r) r = false then advanceRegs (increment p r) r
  else tickRegs rom p sel (advanceRegs (increment p r) r)

/-- SAMPLE (40_sample_step.md R75). Its operands are the ports; `sel` is only what ERR_INFO records (60_exceptions.md
R121, Log 7). -/
def execSample (sel : BitVec 4) (_data : BitVec 32) (s : State) : Host.Outcome State Fault Refusal :=
  .next (s.withRegs (sampleRegs s.rom s.ports sel s.regs))

end Sys2Proof.Machine
end

