-- ==== Sys2Proof/Machine/Dispatch.lean ====
section
/-! DEFINITION. One arm per command (spec/30_encoding.md R63). -/

namespace Sys2Proof.Machine

def exec (i : Instr) (s : State) : Host.Outcome State Fault Refusal :=
  match i with
  | .nop sel data => Sys2Proof.Machine.execNop sel data s
  | .reset sel data => Sys2Proof.Machine.execReset sel data s
  | .init sel data => Sys2Proof.Machine.execInit sel data s
  | .sample sel data => Sys2Proof.Machine.execSample sel data s
  | .read sel data => Sys2Proof.Machine.execRead sel data s

end Sys2Proof.Machine
end

