-- ==== Sys2Proof/Machine/Edge.lean ====
section
/-! DEFINITION. One rising edge of `clk`: reset wins, then a presented command is executed, else nothing changes
(spec/30_encoding.md R60, spec/70_reset_and_hazards.md R140). -/

namespace Sys2Proof.Machine

/-- The word accepted at this edge: a command, or reserved (30_encoding.md R60, R64). -/
def acceptCommand (s : State) : Host.Outcome State Fault Refusal :=
  match decode s.ports.cmd with
  | .instr i => exec i s
  | .reserved op sel => execReserved op sel s

/-- What the edge does with the port values now in `s.ports`: `rst_n = 0` resets and drops the command
(70_reset_and_hazards.md R140); with `cmd_valid = 0` the state does not change (30_encoding.md R60). -/
def clockEdge (s : State) : Host.Outcome State Fault Refusal :=
  if s.ports.rstN = false then .next s.resetBlock
  else if s.ports.cmdValid = false then .next s
  else acceptCommand s

/-- The next rising edge. With none coming, `clk` has stopped and every register holds its value (60_exceptions.md R135;
Log 2). -/
def nextEdge (s : State) : Host.Outcome State Fault Refusal :=
  match s.edges with
  | [] => .next s
  | p :: rest => clockEdge (s.acceptEdge p rest)

end Sys2Proof.Machine
end

