-- ==== Sys2Proof/Machine/Step.lean ====
section
/-! DEFINITION. The step: one rising edge of `clk` (Log 1), and how the host presents one command to it. -/

namespace Sys2Proof.Machine

/-- One rising edge (30_encoding.md R60). -/
def step (s : State) : Host.Outcome State Fault Refusal := nextEdge s

/-- `s` with the command word presented at the next edge (the block fetches nothing, 10_state.md R21; Log 3). -/
def State.withFetchWord (s : State) (nbits w : Nat) : State := presentCommand s (tableWord nbits w)

end Sys2Proof.Machine
end

