-- ==== Sys2Proof/Machine/Assembler.lean ====
section
/-! DEFINITION. The assembler of spec/30_encoding.md R67 to R69: statements to commands and words, and one line of text to a
statement. Lines are lists of characters. Points of the syntax that R67 leaves open are in Log 12. -/

namespace Sys2Proof.Machine

/-- `bits32(<rate>)` (30_encoding.md R67): a decimal literal is rounded to binary32 to nearest even (00_scope.md R12); a hex
literal gives the bits directly. -/
def rateBits : RateLit → F32
  | .decimal neg digits scale => pack32 neg (roundUnits (digits * 2 ^ 149) (10 ^ scale))
  | .hex bits => BitVec.ofNat 32 bits

/-- `<number of reg>` (30_encoding.md R67). -/
def regRefNumber : RegRef → BitVec 4
  | .name r => r.number
  | .number n => BitVec.ofNat 4 n

/-- The commands a statement stands for; a field a command does not use is written as zero (30_encoding.md R67). BLOCK is
`n` SAMPLEs (R68), SETUP is RESET and INIT (R69). -/
def expandAsm : Asm → List Instr
  | .nop => [.nop 0 0]
  | .reset => [.reset 0 0]
  | .init rate => [.init 0 (rateBits rate)]
  | .sample => [.sample 0 0]
  | .read reg => [.read (regRefNumber reg) 0]
  | .block n => List.replicate n (.sample 0 0)
  | .setup rate => [.reset 0 0, .init 0 (rateBits rate)]

/-- The words of a statement; an ill-formed one has none. -/
def assemble (a : Asm) : Option (List Cmd) :=
  if a.wellFormed then some ((expandAsm a).map encode) else none

/-- One audio-callback invocation: `BLOCK BLOCK_SIZE` (30_encoding.md R68, 70_reset_and_hazards.md R142). -/
def audioCallback : Asm := .block Config.blockSize

/-- The block's share of the boot sequence and of `n` callbacks after it (70_reset_and_hazards.md R142). -/
def bootStatements (rate : RateLit) (n : Nat) : List Asm := .setup rate :: List.replicate n audioCallback

/-- The text before a comment, which `;` starts (30_encoding.md R67). -/
def dropComment : List Char → List Char
  | [] => []
  | c :: cs => if c = ';' then [] else c :: dropComment cs

/-- White space between tokens. -/
def isBlank (c : Char) : Bool := c == ' ' || c == '\t' || c == '\r'

/-- Adds a character in front of the tokens read so far from the right. -/
def consToken (c : Char) (acc : List (List Char)) : List (List Char) :=
  if isBlank c then [] :: acc
  else match acc with
    | [] => [[c]]
    | w :: ws => (c :: w) :: ws

/-- The tokens of a line. -/
def tokens (line : List Char) : List (List Char) :=
  (line.foldr consToken [[]]).filter fun w => !w.isEmpty

/-- The value of a digit character in the base `base`, 10 or 16. -/
def digitValue (base : Nat) (c : Char) : Option Nat :=
  let v := if '0' ≤ c ∧ c ≤ '9' then c.toNat - 48
    else if 'a' ≤ c ∧ c ≤ 'f' then c.toNat - 87
    else if 'A' ≤ c ∧ c ≤ 'F' then c.toNat - 55
    else base
  if v < base then some v else none

/-- Digits read from the left after the value `acc`. -/
def digitsFrom (base : Nat) (acc : Nat) : List Char → Option Nat
  | [] => some acc
  | c :: cs => (digitValue base c).bind fun v => digitsFrom base (acc * base + v) cs

/-- A number of at least one digit; leading zeros are allowed (Log 12). -/
def parseDigits (base : Nat) (cs : List Char) : Option Nat :=
  if cs.isEmpty then none else digitsFrom base 0 cs

/-- A decimal literal without its sign: digits, or digits, a point and digits. -/
def parseDecimal (neg : Bool) (cs : List Char) : Option RateLit :=
  let whole := cs.takeWhile (· != '.')
  match cs.drop whole.length with
  | [] => (parseDigits 10 whole).map fun d => .decimal neg d 0
  | _ :: frac =>
    if whole.isEmpty || frac.isEmpty then none
    else (parseDigits 10 (whole ++ frac)).map fun d => .decimal neg d frac.length

/-- `<rate>`: a hex bit pattern of eight digits after `0x`, or a decimal literal (30_encoding.md R67). -/
def parseRate : List Char → Option RateLit
  | '0' :: 'x' :: cs => if cs.length = 8 then (parseDigits 16 cs).map .hex else none
  | '-' :: cs => parseDecimal true cs
  | cs => parseDecimal false cs

/-- The spellings of the register names (10_state.md R23). -/
def regSpellings : List (List Char × RegName) :=
  [ (['S','T','A','T','U','S'], .status),
    (['S','A','M','P','L','E','_','R','A','T','E'], .sampleRate),
    (['P','H','A','S','E'], .phase),
    (['P','H','A','S','E','_','I','N','C'], .phaseInc),
    (['P','I','T','C','H','_','I','N','D','E','X'], .pitchIndex),
    (['T','I','C','K','_','C','O','U','N','T'], .tickCount),
    (['V','O','I','C','E','_','F','R','E','Q','0'], .voiceFreq0),
    (['V','O','I','C','E','_','F','R','E','Q','1'], .voiceFreq1),
    (['V','O','I','C','E','_','F','R','E','Q','2'], .voiceFreq2),
    (['V','O','I','C','E','_','F','R','E','Q','3'], .voiceFreq3),
    (['P','I','T','C','H','_','T','A','B','L','E','0'], .pitchTable0),
    (['P','I','T','C','H','_','T','A','B','L','E','1'], .pitchTable1),
    (['P','I','T','C','H','_','T','A','B','L','E','2'], .pitchTable2),
    (['P','I','T','C','H','_','T','A','B','L','E','3'], .pitchTable3),
    (['P','I','T','C','H','_','T','A','B','L','E','4'], .pitchTable4),
    (['E','R','R','_','I','N','F','O'], .errInfo) ]

/-- `<reg>`: a name of 10_state.md R23, or a number (30_encoding.md R67; its range is checked by `Asm.wellFormed`). DESIGN CHOICE
(Log 12): R67 does not say the radix of the number, and the model reads decimal digits only. -/
def parseReg (cs : List Char) : Option RegRef :=
  match regSpellings.find? fun row => row.1 == cs with
  | some row => some (.name row.2)
  | none => (parseDigits 10 cs).map .number

/-- A statement from its mnemonic in capitals and its operand tokens (30_encoding.md R67 to R69). DESIGN CHOICE (Log 12): R68 does
not say the radix of BLOCK's `n`, and the model reads decimal digits only. -/
def parseStatement : List Char → List (List Char) → Option Asm
  | ['N','O','P'], [] => some .nop
  | ['R','E','S','E','T'], [] => some .reset
  | ['I','N','I','T'], [rate] => (parseRate rate).map .init
  | ['S','A','M','P','L','E'], [] => some .sample
  | ['R','E','A','D'], [reg] => (parseReg reg).map .read
  | ['B','L','O','C','K'], [n] => (parseDigits 10 n).map .block
  | ['S','E','T','U','P'], [rate] => (parseRate rate).map .setup
  | _, _ => none

/-- One line (30_encoding.md R67): nothing but white space and a comment has no words; a line that is no statement, or an
ill-formed one, is refused (`none`). Mnemonics are case-insensitive. -/
def assembleLine (line : List Char) : Option (List Cmd) :=
  match tokens (dropComment line) with
  | [] => some []
  | m :: ops => (parseStatement (m.map Char.toUpper) ops).bind assemble

end Sys2Proof.Machine
end

