-- ==== Sys2Proof/Machine/Outputs.lean ====
section
/-! DEFINITION. The output ports (spec/10_state.md R39, R40, spec/42_readback.md R112, spec/60_exceptions.md R125, R126):
fixed functions of the registers, with no path from the inputs. -/

namespace Sys2Proof.Machine

/-- The values on the output ports (10_state.md R39). -/
structure Outputs where
  /-- `voice_freq0..3` -/
  voiceFreq : Vector F32 4
  /-- `env_trig`: a level, equal to STATUS.TICK (R40) -/
  envTrig : Bool
  /-- `pitch_index` -/
  pitchIndex : BitVec 3
  /-- `freq_valid` -/
  freqValid : Bool
  /-- `status` -/
  status : Word32
  /-- `rd_data` -/
  rdData : Word32
  /-- `err`: OR of STATUS bits 3 to 7 (60_exceptions.md R125) -/
  err : Bool
  deriving DecidableEq, Repr

/-- The outputs that a block with these registers shows. -/
def Regs.outputs (r : Regs) : Outputs where
  voiceFreq := r.voiceFreq
  envTrig := getFlag r.status .tick
  pitchIndex := r.pitchIndex
  freqValid := getFlag r.status .freqValid
  status := statusWord r.status
  rdData := r.rdData
  err := anyError r.status

end Sys2Proof.Machine
end

