-- ==== Sys2Proof/Safety.lean ====
section
/-! DEFINITION. The terms claims are made in: a faulted state (spec/60_exceptions.md R120), what the environment may present
(spec/20_memory.md R54, spec/00_scope.md R8), and the invariant that the spec's rules promise of the registers (spec/10_state.md
R25 to R28, R31, R33, spec/40_sample_step.md R85, spec/60_exceptions.md R120 to R124). -/

namespace Sys2Proof.Machine

/-- A raised error is a model fault: a faulted state is never a good final state, and a claim takes its absence at the end as
a premise (60_exceptions.md R120). -/
def faulted (r : Regs) : Bool := anyError r.status

/-- This edge is the sampling edge of a SAMPLE: it accepts one (20_memory.md R49, 30_encoding.md R60). -/
def Ports.samples (p : Ports) : Bool := p.rstN && (p.cmdValid && (opField p.cmd == opSample))

/-- `W_f` of the clock-rate field: its startup default, then the words the control domain writes (20_memory.md R54). -/
def rateWords (writes : List F32) : List F32 := Config.rateDefault :: writes

/-- `W_f` of the frequency-offset field: its startup default, then the words the control domain writes (20_memory.md R54). -/
def offsetWords (writes : List F32) : List F32 := Config.offsetDefault :: writes

/-- Per-field value integrity (20_memory.md R54 clause 1): each word that a SAMPLE samples is one element of its field's `W_f`.
Which element, in what order and with which word of the other field is free (clauses 2 to 4), and so are the words on an
edge that samples none. -/
def fieldIntegrity (rateWrites offsetWrites : List F32) (es : List Ports) : Prop :=
  ∀ p ∈ es, p.samples = true → p.clockRate ∈ rateWords rateWrites ∧ p.freqOffset ∈ offsetWords offsetWrites

/-- The clock-rate words that the curve of 00_scope.md R8 can deliver: `[0, RATE_HI - RATE_LO]`. -/
def rateInCurveRange (w : F32) : Bool := ge32 w zero32 && ge32 (sub32 Config.rateHi Config.rateLo) w

/-- The offset words that the curve of 00_scope.md R8 can deliver: `[0, OFFSET_HI - OFFSET_LO]`. -/
def offsetInCurveRange (w : F32) : Bool := ge32 w zero32 && ge32 (sub32 Config.offsetHi Config.offsetLo) w

/-- The command of an edge that accepts one (30_encoding.md R60); none at any other edge. -/
def Ports.accepted (p : Ports) : Option Decoded :=
  if p.rstN && p.cmdValid then some (decode p.cmd) else none

/-- This edge returns the block to its reset state: `rst_n = 0`, or an accepted RESET (60_exceptions.md R120). -/
def Ports.resets (p : Ports) : Bool :=
  !p.rstN || (p.cmdValid && (opField p.cmd == opReset))

/-- What ERR_INFO.FIRST_OP can be for each FIRST_CODE (60_exceptions.md R121). -/
def opMatchesCode (e : ErrInfo) : Prop :=
  (e.code = 1#3 → 5 ≤ e.op.toNat) ∧ (e.code = 2#3 ∨ e.code = 3#3 ∨ e.code = 5#3 → e.op = opSample) ∧
    (e.code = 4#3 → e.op = opSample ∨ e.op = opInit)

/-- The invariant of the registers from reset on. -/
structure RegsInv (r : Regs) : Prop where
  /-- with INIT_DONE set, SAMPLE_RATE is finite and above `+0.0` (10_state.md R25) -/
  rate_positive : getFlag r.status .initDone = true → finite32 r.sampleRate = true ∧ lt32 zero32 r.sampleRate = true
  /-- `+0.0 <= PHASE < 1.0`, and PHASE is not `-0.0` (10_state.md R26, 40_sample_step.md R85) -/
  phase_in_unit : ge32 r.phase zero32 = true ∧ lt32 r.phase one32 = true ∧ r.phase ≠ 0x80000000#32
  /-- PHASE_INC is in `[-0.0, 1.0)` (10_state.md R27) -/
  inc_admitted : incAdmitted r.phaseInc = true
  /-- PITCH_INDEX is in 0..4 (10_state.md R28) -/
  pitch_in_table : r.pitchIndex.toNat ≤ 4
  /-- FIRST_CODE 6 and 7 never occur (10_state.md R33) -/
  code_known : r.errInfo.code.toNat ≤ 5
  /-- FIRST_CODE is 0 exactly while no error has been raised (10_state.md R33, 60_exceptions.md R123) -/
  recorded_iff_error : r.errInfo.code = 0#3 ↔ faulted r = false
  /-- the first error's own sticky bit is set (60_exceptions.md R121, R123) -/
  recorded_is_sticky : ∀ e : ErrKind, r.errInfo.code = e.code → getFlag r.status e.flag = true
  /-- ERR_INFO is `0x00000000` until an error is recorded (10_state.md R33) -/
  clean_record : r.errInfo.code = 0#3 → errInfoWord r.errInfo = 0#32
  /-- FIRST_OP is an `op` that can raise FIRST_CODE (60_exceptions.md R121) -/
  first_op : opMatchesCode r.errInfo
  /-- before a successful INIT nothing of the timer or of the ticks is written (40_sample_step.md R76, 70_reset_and_hazards.md
  R143) -/
  before_init : getFlag r.status .initDone = false →
    r.sampleRate = zero32 ∧ r.phase = zero32 ∧ r.phaseInc = zero32 ∧ r.tickCount = 0#32 ∧
      getFlag r.status .tick = false ∧ getFlag r.status .freqValid = false ∧
      getFlag r.status .errRate = false ∧ getFlag r.status .errDraw = false
  /-- before the first tick with a valid draw the pitch and the voices hold their reset values (10_state.md R28, R31) -/
  before_voice : getFlag r.status .freqValid = false →
    r.pitchIndex = 0#3 ∧ (∀ k : Fin 4, r.voiceFreq[k] = zero32) ∧ getFlag r.status .errFreq = false
  /-- a voice frequency that is not finite has raised ERR_FREQ (40_sample_step.md R83) -/
  voices_finite : getFlag r.status .errFreq = false → ∀ k : Fin 4, finite32 r.voiceFreq[k] = true

end Sys2Proof.Machine
end

