-- ==== Sys2Proof/Certificates/Slice0/Obligations.lean ====
section
/-! DEFINITION. The statements for the provers. Each docstring names the rule of spec/ it formalises; a statement that
rests on a choice of the model names its log entry. -/

open Sys2Proof Sys2Proof.Machine

/-! ### Encoding -/

/-- 30_encoding.md R61, R63, R65: decoding an encoded command gives it back with both operand fields, and encoding what a word
decodes to gives the word back. -/
def Obligations.DecodeEncodeRoundTrip : Prop :=
  (∀ i : Instr, decode (encode i) = .instr i) ∧ (∀ (w : Cmd) (i : Instr), decode w = .instr i → encode i = w)

/-- 30_encoding.md R63, R64, 95_test_vectors.md section 2.6: the masked word selects the command, its fields are bits 35:32
and 31:0, and every other word is reserved. -/
def Obligations.DecodeSelectsByOpcodeAlone : Prop :=
  ∀ w : Cmd,
    (w &&& 0xF000000000#40 = 0x0000000000#40 → decode w = .instr (.nop (w.extractLsb' 32 4) (w.extractLsb' 0 32))) ∧
    (w &&& 0xF000000000#40 = 0x1000000000#40 → decode w = .instr (.reset (w.extractLsb' 32 4) (w.extractLsb' 0 32))) ∧
    (w &&& 0xF000000000#40 = 0x2000000000#40 → decode w = .instr (.init (w.extractLsb' 32 4) (w.extractLsb' 0 32))) ∧
    (w &&& 0xF000000000#40 = 0x3000000000#40 → decode w = .instr (.sample (w.extractLsb' 32 4) (w.extractLsb' 0 32))) ∧
    (w &&& 0xF000000000#40 = 0x4000000000#40 → decode w = .instr (.read (w.extractLsb' 32 4) (w.extractLsb' 0 32))) ∧
    (0x5000000000 ≤ w.toNat → decode w = .reserved (w.extractLsb' 36 4) (w.extractLsb' 32 4))

/-- 30_encoding.md R70: the reference words. -/
def Obligations.ReferenceEncodings : Prop :=
  encode (.nop 0 0) = 0x0000000000#40 ∧ encode (.reset 0 0) = 0x1000000000#40 ∧
  encode (.init 0 0x473B8000#32) = 0x20473B8000#40 ∧ encode (.init 0 0x472C4400#32) = 0x20472C4400#40 ∧
  encode (.sample 0 0) = 0x3000000000#40 ∧ encode (.read RegName.status.number 0) = 0x4000000000#40 ∧
  encode (.read RegName.tickCount.number 0) = 0x4500000000#40 ∧
  encode (.read RegName.voiceFreq0.number 0) = 0x4600000000#40 ∧
  encode (.read RegName.errInfo.number 0) = 0x4F00000000#40 ∧ decode 0x7000000000#40 = .reserved 7 0 ∧
  decode 0x20473B8000#40 = .instr (.init 0 0x473B8000#32) ∧ decode 0x4500000000#40 = .instr (.read 5 0)

/-- 30_encoding.md R67 to R69: a well-formed statement assembles to the words of its commands, each in the assembler's form
(unused fields zero), and they decode back. The five rows of R67 as words: NOP, RESET, SAMPLE, INIT with the bits of its rate,
READ by number, and READ by each name of 10_state.md R23. The decimal rate is `DecimalRateRoundsToNearestEven`. -/
def Obligations.AssembledWordsDecodeBack : Prop :=
  (∀ (a : Asm) (ws : List Cmd), assemble a = some ws →
    ws.map decode = (expandAsm a).map Decoded.instr ∧ ∀ i ∈ expandAsm a, i.canonical = true) ∧
  assemble .nop = some [0x0000000000#40] ∧ assemble .reset = some [0x1000000000#40] ∧
  assemble .sample = some [0x3000000000#40] ∧
  (∀ bits : Nat, bits < 2 ^ 32 → assemble (.init (.hex bits)) = some [0x2000000000#40 ||| BitVec.ofNat 40 bits]) ∧
  (∀ n : Nat, n < 16 → assemble (.read (.number n)) = some [0x4000000000#40 ||| (BitVec.ofNat 40 n <<< 32)]) ∧
  (∀ (r : RegName) (n : Nat),
    (r, n) ∈ [(.status, 0), (.sampleRate, 1), (.phase, 2), (.phaseInc, 3), (.pitchIndex, 4), (.tickCount, 5),
      (.voiceFreq0, 6), (.voiceFreq1, 7), (.voiceFreq2, 8), (.voiceFreq3, 9), (.pitchTable0, 10), (.pitchTable1, 11),
      (.pitchTable2, 12), (.pitchTable3, 13), (.pitchTable4, 14), (.errInfo, 15)] →
    assemble (.read (.name r)) = some [0x4000000000#40 ||| (BitVec.ofNat 40 n <<< 32)])

/-- 30_encoding.md R67, R69 with 00_scope.md R12: a decimal rate assembles to the binary32 value nearest to it, ties to even, in
INIT and in SETUP alike, and to an infinity where it is too large. `x` is the decimal `digits / 10^scale` with its sign, in
units of 2^-149 and times `10^scale`. That the sign of the literal is kept on a zero is the model's choice, Log 12. -/
def Obligations.DecimalRateRoundsToNearestEven : Prop :=
  ∀ (neg : Bool) (digits scale : Nat) (x : Int),
    x = (if neg then -((digits : Int) * 2 ^ 149) else (digits : Int) * 2 ^ 149) →
    ∃ b : F32,
      assemble (.init (.decimal neg digits scale)) = some [0x2000000000#40 ||| b.setWidth 40] ∧
      assemble (.setup (.decimal neg digits scale)) = some [0x1000000000#40, 0x2000000000#40 ||| b.setWidth 40] ∧
      signBit b = neg ∧
      (|x| < (2 ^ 25 - 1) * 2 ^ 252 * 10 ^ scale → finite32 b = true ∧ ∀ c : F32, finite32 c = true →
        |units32 b * 10 ^ scale - x| ≤ |units32 c * 10 ^ scale - x| ∧
        (|units32 c * 10 ^ scale - x| = |units32 b * 10 ^ scale - x| → units32 c ≠ units32 b → b.getLsbD 0 = false)) ∧
      ((2 ^ 25 - 1) * 2 ^ 252 * 10 ^ scale ≤ |x| → isInf32 b = true)

/-- 30_encoding.md R68, R69: BLOCK is `n` SAMPLEs, SETUP is RESET followed by INIT. -/
def Obligations.PseudoInstructionsExpand : Prop :=
  (∀ n : Nat, 1 ≤ n → assemble (.block n) = some (List.replicate n 0x3000000000#40)) ∧
  (∀ bits : Nat, bits < 2 ^ 32 →
    assemble (.setup (.hex bits)) = some [0x1000000000#40, 0x2000000000#40 ||| BitVec.ofNat 40 bits])

/-! ### The clock edge -/

/-- 30_encoding.md R60: a command is accepted exactly at an edge with `cmd_valid = 1` and `rst_n = 1` and executes there; at an
edge with `cmd_valid = 0` (and no reset) the registers do not change. -/
def Obligations.EdgeRunsTheDecodedCommand : Prop :=
  ∀ (s : State) (p : Ports) (rest : List Ports), s.edges = p :: rest → p.rstN = true →
    (p.cmdValid = true → ∀ i, decode p.cmd = .instr i → step s = exec i { s with ports := p, edges := rest }) ∧
    (p.cmdValid = false → step s = .next { s with ports := p, edges := rest })

/-- The model's choice, Log 3 (10_state.md R21: nothing is fetched): the host presents a command by `withFetchWord`, and the next
step runs exactly that command, from any state, with the words and the draw that the coming edge (with none, the ports)
carried. -/
def Obligations.PresentedCommandRunsNext : Prop :=
  ∀ (s : State) (i : Instr),
    (s.edges = [] → step (s.withFetchWord 40 (encode i).toNat) =
      exec i { s with ports := { s.ports with rstN := true, cmdValid := true, cmd := encode i } }) ∧
    (∀ (p : Ports) (rest : List Ports), s.edges = p :: rest → step (s.withFetchWord 40 (encode i).toNat) =
      exec i { s with ports := { p with rstN := true, cmdValid := true, cmd := encode i }, edges := rest })

/-- 30_encoding.md R64: a reserved word changes nothing but the sticky bit and, if it is the first error, ERR_INFO. -/
def Obligations.ReservedOpcodeRaisesErrOpcode : Prop :=
  ∀ (s : State) (p : Ports) (rest : List Ports), s.edges = p :: rest → p.rstN = true → p.cmdValid = true →
    5 ≤ (p.cmd.extractLsb' 36 4).toNat →
    step s = .next { s with
      ports := p
      edges := rest
      regs := { s.regs with
        status := s.regs.status ||| 0x08#8
        errInfo := if s.regs.errInfo.code = 0#3
          then { code := 1#3, op := p.cmd.extractLsb' 36 4, sel := p.cmd.extractLsb' 32 4 } else s.regs.errInfo } }

/-- 70_reset_and_hazards.md R140: an edge with `rst_n = 0` gives the reset state from any state whatever (power-up
included), drops the command, and leaves the ROM. -/
def Obligations.ResetEdgeGivesResetState : Prop :=
  ∀ (s : State) (p : Ports) (rest : List Ports), s.edges = p :: rest → p.rstN = false →
    ∃ t, step s = .next t ∧ t.rom = s.rom ∧ t.edges = rest ∧
      t.regs = { status := 0#8, sampleRate := 0#32, phase := 0#32, phaseInc := 0#32, pitchIndex := 0#3, tickCount := 0#32,
                 voiceFreq := #v[0#32, 0#32, 0#32, 0#32], errInfo := { code := 0#3, op := 0#4, sel := 0#4 }, rdData := 0#32 } ∧
      t.regs.outputs = { voiceFreq := #v[0#32, 0#32, 0#32, 0#32], envTrig := false, pitchIndex := 0#3, freqValid := false,
                         status := 0#32, rdData := 0#32, err := false }

/-- 60_exceptions.md R127, R132: nothing stops the block; every step from every state answers a next state. That an error is a
next state too is the model's reading, Log 5: R120 says that a model treats every raised error as a fault, and here that is
the predicate `faulted`. That the step with no coming edge answers the same state is the model's reading of R135, Log 2. -/
def Obligations.EveryStepCompletes : Prop :=
  ∀ s : State, ∃ t, step s = .next t

/-- 10_state.md R32: the ROM holds PITCH_TABLE at reset, no step changes it, and READ sel 10 to 14 shows it. The ROM as a field of
State is the model's choice, Log 4. -/
def Obligations.StepKeepsPitchTable : Prop :=
  State.reset.rom = Config.pitchTable ∧ (∀ s t : State, step s = .next t → t.rom = s.rom) ∧
  ∀ (rom : Vector F32 5) (r : Regs) (i : Fin 5), reg32 rom r (BitVec.ofNat 4 (10 + i.val)) = rom[i]

/-! ### NOP, RESET, INIT, READ -/

/-- 41_init_and_control.md R100: NOP changes nothing, and an edge without a command does the same. -/
def Obligations.NopChangesNothing : Prop :=
  (∀ w : Cmd, w &&& 0xF000000000#40 = 0x0000000000#40 → ∃ sel data, decode w = .instr (.nop sel data)) ∧
  (∀ (sel : BitVec 4) (data : BitVec 32) (s : State), exec (.nop sel data) s = .next s) ∧
  (∀ (s : State) (p : Ports) (rest : List Ports), s.edges = p :: rest → p.rstN = true → p.cmdValid = false →
    step s = exec (.nop 0 0) { s with ports := p, edges := rest })

/-- 41_init_and_control.md R102: RESET takes every register but the ROM to its reset value, as `rst_n = 0` does; no other command
clears a sticky error bit or ERR_INFO; and a SAMPLE after it raises ERR_SEQ. -/
def Obligations.ResetCommandRestoresResetState : Prop :=
  (∀ w : Cmd, w &&& 0xF000000000#40 = 0x1000000000#40 → ∃ sel data, decode w = .instr (.reset sel data)) ∧
  (∀ (sel : BitVec 4) (data : BitVec 32) (s : State), exec (.reset sel data) s = .next { s with
    regs := { status := 0#8, sampleRate := 0#32, phase := 0#32, phaseInc := 0#32, pitchIndex := 0#3, tickCount := 0#32,
              voiceFreq := #v[0#32, 0#32, 0#32, 0#32], errInfo := { code := 0#3, op := 0#4, sel := 0#4 }, rdData := 0#32 } }) ∧
  (∀ (i : Instr) (s t : State), i.opcode ≠ 1#4 → exec i s = .next t →
    (∀ e : ErrKind, getFlag s.regs.status e.flag = true → getFlag t.regs.status e.flag = true) ∧
    (s.regs.errInfo.code ≠ 0#3 → t.regs.errInfo = s.regs.errInfo)) ∧
  (∀ (sel sel' : BitVec 4) (data data' : BitVec 32) (s t u : State), exec (.reset sel data) s = .next t →
    exec (.sample sel' data') t = .next u → getFlag u.regs.status .errSeq = true)

/-- 41_init_and_control.md R101: INIT with a finite rate above zero loads it, restarts the timer, clears TICK and sets INIT_DONE;
any other rate raises ERR_SEQ and clears TICK only. Everything not named is unchanged. In the invalid-rate clause, that
ERR_INFO is written is the model's reading, Log 8 (a bullet of R101 says that INIT does not touch it), and that FIRST_SEL
records the ignored `sel` is the model's reading, Log 7. -/
def Obligations.InitLoadsRateOrRaisesErrSeq : Prop :=
  (∀ w : Cmd, w &&& 0xF000000000#40 = 0x2000000000#40 → ∃ sel, decode w = .instr (.init sel (w.extractLsb' 0 32))) ∧
  ∀ (sel : BitVec 4) (data : BitVec 32) (s : State),
    (finite32 data = true ∧ lt32 0x00000000#32 data = true →
      exec (.init sel data) s = .next { s with
        regs := { s.regs with
          status := putFlag (putFlag s.regs.status .tick false) .initDone true
          sampleRate := data, phase := 0#32, phaseInc := 0#32 } }) ∧
    (¬(finite32 data = true ∧ lt32 0x00000000#32 data = true) →
      exec (.init sel data) s = .next { s with
        regs := { s.regs with
          status := putFlag (putFlag s.regs.status .tick false) .errSeq true
          errInfo := if s.regs.errInfo.code = 0#3 then { code := 4#3, op := 2#4, sel := sel } else s.regs.errInfo } })

/-- 41_init_and_control.md R101 (exceptions and corner cases): the rates INIT accepts are the words 0x00000001 to 0x7F7FFFFF, the
positive finite values, subnormals included. -/
def Obligations.InitAcceptsPositiveFiniteRates : Prop :=
  ∀ data : BitVec 32, (finite32 data = true ∧ lt32 0x00000000#32 data = true) ↔ (0 < data.toNat ∧ data.toNat < 0x7F800000)

/-- 42_readback.md R110: READ copies the selected register to RD_DATA and changes nothing else. The registers by number are those
of 10_state.md R23. -/
def Obligations.ReadCopiesSelectedRegister : Prop :=
  (∀ w : Cmd, w &&& 0xF000000000#40 = 0x4000000000#40 → ∃ data, decode w = .instr (.read (w.extractLsb' 32 4) data)) ∧
  ∀ (sel : BitVec 4) (data : BitVec 32) (s : State),
    exec (.read sel data) s = .next { s with regs := { s.regs with rdData :=
      (#v[ s.regs.status.setWidth 32, s.regs.sampleRate, s.regs.phase, s.regs.phaseInc, s.regs.pitchIndex.setWidth 32,
           s.regs.tickCount, s.regs.voiceFreq[0], s.regs.voiceFreq[1], s.regs.voiceFreq[2], s.regs.voiceFreq[3],
           s.rom[0], s.rom[1], s.rom[2], s.rom[3], s.rom[4],
           (s.regs.errInfo.sel ++ s.regs.errInfo.op ++ 0#1 ++ s.regs.errInfo.code).setWidth 32 ]
        : Vector (BitVec 32) 16)[sel.toNat] } }

/-- 20_memory.md R51: reading a register changes no register that can be read, the sticky bits and TICK_COUNT among them. -/
def Obligations.ReadHasNoSideEffect : Prop :=
  ∀ (sel : BitVec 4) (data : BitVec 32) (s t : State), exec (.read sel data) s = .next t →
    (∀ sel' : BitVec 4, reg32 t.rom t.regs sel' = reg32 s.rom s.regs sel') ∧
    t.regs.status = s.regs.status ∧ t.regs.tickCount = s.regs.tickCount

/-- 70_reset_and_hazards.md R149, 42_readback.md R111: a READ at the edge after another edge returns that edge's results, and
`rd_data` shows them. -/
def Obligations.ReadReturnsTheEarlierEdgesResults : Prop :=
  ∀ (s t u : State) (p q : Ports) (rest : List Ports) (sel : BitVec 4) (data : BitVec 32), s.edges = p :: q :: rest →
    q.accepted = some (.instr (.read sel data)) → step s = .next t → step t = .next u →
    u.regs.outputs.rdData = reg32 t.rom t.regs sel ∧ ∀ sel' : BitVec 4, reg32 u.rom u.regs sel' = reg32 t.rom t.regs sel'

/-! ### SAMPLE -/

/-- 40_sample_step.md R76: SAMPLE before a successful INIT clears TICK, raises ERR_SEQ, and changes nothing else. The ERR_INFO
clause is the model's reading: that `raise` writes it although R76 says that nothing else changes is Log 8, and that
FIRST_SEL records the ignored `sel` is Log 7. -/
def Obligations.SampleBeforeInitRaisesErrSeq : Prop :=
  ∀ (sel : BitVec 4) (data : BitVec 32) (s : State), getFlag s.regs.status .initDone = false →
    exec (.sample sel data) s = .next { s with
      regs := { s.regs with
        status := putFlag (putFlag s.regs.status .tick false) .errSeq true
        errInfo := if s.regs.errInfo.code = 0#3 then { code := 4#3, op := 3#4, sel := sel } else s.regs.errInfo } }

/-- 40_sample_step.md R78: an increment outside `[-0.0, 1.0)` clears TICK, raises ERR_RATE, and changes nothing else; the check
admits `-0.0`, which a clock rate of `-0.0` gives, and a negative one whose quotient rounds to a zero. That FIRST_SEL in
ERR_INFO records the `sel` which SAMPLE ignores (R75, 30_encoding.md R65) is the model's reading, Log 7. -/
def Obligations.SampleRateOutsideDomainRaisesErrRate : Prop :=
  (∀ (sel : BitVec 4) (data : BitVec 32) (s : State), getFlag s.regs.status .initDone = true →
    ¬(ge32 (div32 s.ports.clockRate s.regs.sampleRate) 0x00000000#32 = true ∧
      lt32 (div32 s.ports.clockRate s.regs.sampleRate) 0x3F800000#32 = true) →
    exec (.sample sel data) s = .next { s with
      regs := { s.regs with
        status := putFlag (putFlag s.regs.status .tick false) .errRate true
        errInfo := if s.regs.errInfo.code = 0#3 then { code := 2#3, op := 3#4, sel := sel } else s.regs.errInfo } }) ∧
  (∀ (sel : BitVec 4) (data : BitVec 32) (s t : State), getFlag s.regs.status .initDone = true →
    ge32 (div32 s.ports.clockRate s.regs.sampleRate) 0x00000000#32 = true →
    lt32 (div32 s.ports.clockRate s.regs.sampleRate) 0x3F800000#32 = true →
    exec (.sample sel data) s = .next t → t.regs.phaseInc = div32 s.ports.clockRate s.regs.sampleRate) ∧
  ge32 0x80000000#32 0x00000000#32 = true ∧
  (∀ sr : F32, finite32 sr = true → lt32 0x00000000#32 sr = true → div32 0x80000000#32 sr = 0x80000000#32) ∧
  (∀ c sr : F32, finite32 c = true → finite32 sr = true → lt32 c 0x00000000#32 = true → lt32 0x00000000#32 sr = true →
    units32 (div32 c sr) = 0 → div32 c sr = 0x80000000#32)

/-- 40_sample_step.md R78, R90: as words, the admitted increments are `-0.0` and the words below that of `1.0`. -/
def Obligations.AdmittedIncrementWords : Prop :=
  ∀ inc : F32, (ge32 inc 0x00000000#32 = true ∧ lt32 inc 0x3F800000#32 = true) ↔
    (inc = 0x80000000#32 ∨ inc.toNat < 0x3F800000)

/-- 40_sample_step.md R77 to R80, without a tick: PHASE_INC and PHASE take the increment and the sum, TICK is cleared, and
everything else is unchanged. -/
def Obligations.SampleWithoutTickAdvancesPhase : Prop :=
  ∀ (sel : BitVec 4) (data : BitVec 32) (s : State) (inc : F32), inc = div32 s.ports.clockRate s.regs.sampleRate →
    getFlag s.regs.status .initDone = true → ge32 inc 0x00000000#32 = true → lt32 inc 0x3F800000#32 = true →
    ge32 (add32 s.regs.phase inc) 0x3F800000#32 = false →
    exec (.sample sel data) s = .next { s with
      regs := { s.regs with
        status := putFlag s.regs.status .tick false, phase := add32 s.regs.phase inc, phaseInc := inc } }

/-- 40_sample_step.md R81: a tick with a draw above 4 is a tick (TICK, TICK_COUNT, the wrapped PHASE) that raises ERR_DRAW and
leaves the pitch, the frequencies and FREQ_VALID; with a draw of 0..4 the tick writes it to PITCH_INDEX. That FIRST_SEL in
ERR_INFO records the `sel` which SAMPLE ignores is the model's reading, Log 7. -/
def Obligations.SampleTickWithBadDrawRaisesErrDraw : Prop :=
  (∀ (sel : BitVec 4) (data : BitVec 32) (s : State) (inc : F32), inc = div32 s.ports.clockRate s.regs.sampleRate →
    getFlag s.regs.status .initDone = true → ge32 inc 0x00000000#32 = true → lt32 inc 0x3F800000#32 = true →
    ge32 (add32 s.regs.phase inc) 0x3F800000#32 = true → 4 < s.ports.rndIdx.toNat →
    exec (.sample sel data) s = .next { s with
      regs := { s.regs with
        status := putFlag (putFlag s.regs.status .tick true) .errDraw true
        phase := sub32 (add32 s.regs.phase inc) 0x3F800000#32
        phaseInc := inc
        tickCount := s.regs.tickCount + 1#32
        errInfo := if s.regs.errInfo.code = 0#3 then { code := 3#3, op := 3#4, sel := sel } else s.regs.errInfo } }) ∧
  (∀ (sel : BitVec 4) (data : BitVec 32) (s t : State), exec (.sample sel data) s = .next t →
    getFlag t.regs.status .tick = true → s.ports.rndIdx.toNat ≤ 4 → t.regs.pitchIndex = s.ports.rndIdx)

/-- 40_sample_step.md R79 to R83: a tick with a valid draw wraps PHASE, counts the tick, sets TICK and FREQ_VALID, and writes the
pitch and the four frequencies, each operation rounded, left to right; a frequency that is not finite raises ERR_FREQ and the
values stand. Everything else is unchanged. That FIRST_SEL in ERR_INFO records the `sel` which SAMPLE ignores is the model's
reading, Log 7. -/
def Obligations.SampleTickWritesVoices : Prop :=
  ∀ (sel : BitVec 4) (data : BitVec 32) (s : State) (inc t o : F32) (v : Vector F32 4),
    inc = div32 s.ports.clockRate s.regs.sampleRate →
    getFlag s.regs.status .initDone = true → ge32 inc 0x00000000#32 = true → lt32 inc 0x3F800000#32 = true →
    ge32 (add32 s.regs.phase inc) 0x3F800000#32 = true →
    s.rom[s.ports.rndIdx.toNat]? = some t → o = s.ports.freqOffset →
    v = #v[add32 t o, add32 (add32 t 0x42DC0000#32) o, add32 (sub32 t 0x42DC0000#32) o, add32 (add32 t 0x435C0000#32) o] →
    ((∀ k : Fin 4, finite32 v[k] = true) →
      exec (.sample sel data) s = .next { s with
        regs := { s.regs with
          status := putFlag (putFlag s.regs.status .tick true) .freqValid true
          phase := sub32 (add32 s.regs.phase inc) 0x3F800000#32
          phaseInc := inc
          tickCount := s.regs.tickCount + 1#32
          pitchIndex := s.ports.rndIdx
          voiceFreq := v } }) ∧
    ((∃ k : Fin 4, finite32 v[k] = false) →
      exec (.sample sel data) s = .next { s with
        regs := { s.regs with
          status := putFlag (putFlag (putFlag s.regs.status .tick true) .freqValid true) .errFreq true
          phase := sub32 (add32 s.regs.phase inc) 0x3F800000#32
          phaseInc := inc
          tickCount := s.regs.tickCount + 1#32
          pitchIndex := s.ports.rndIdx
          voiceFreq := v
          errInfo := if s.regs.errInfo.code = 0#3 then { code := 5#3, op := 3#4, sel := sel } else s.regs.errInfo } })

/-- 40_sample_step.md R88: the offset is read only on a tick with a valid draw: two SAMPLEs that differ in it alone end alike unless
the SAMPLE ticks with a draw of 0..4, and a SAMPLE that does not tick (or draws above 4) leaves VOICE_FREQ0..3. The same
holds of the draw on a SAMPLE that does not tick (R89). -/
def Obligations.OffsetAndDrawReadOnlyOnTick : Prop :=
  ∀ (sel : BitVec 4) (data : BitVec 32) (s t : State), exec (.sample sel data) s = .next t →
    (getFlag t.regs.status .tick = false → t.regs.voiceFreq = s.regs.voiceFreq ∧ ∀ (o : F32) (d : BitVec 3),
      exec (.sample sel data) { s with ports := { s.ports with freqOffset := o, rndIdx := d } } =
        .next { t with ports := { s.ports with freqOffset := o, rndIdx := d } }) ∧
    (4 < s.ports.rndIdx.toNat → t.regs.voiceFreq = s.regs.voiceFreq ∧ ∀ o : F32,
      exec (.sample sel data) { s with ports := { s.ports with freqOffset := o } } =
        .next { t with ports := { s.ports with freqOffset := o } })

/-- 40_sample_step.md R86, R90: a clock rate of zero of either sign is admitted, leaves PHASE as it is, never ticks, and holds the
voices. -/
def Obligations.ZeroRateHoldsThePhase : Prop :=
  ∀ (sel : BitVec 4) (data : BitVec 32) (s : State), RegsInv s.regs → getFlag s.regs.status .initDone = true →
    s.ports.clockRate = 0x00000000#32 ∨ s.ports.clockRate = 0x80000000#32 →
    exec (.sample sel data) s = .next { s with
      regs := { s.regs with status := putFlag s.regs.status .tick false, phaseInc := s.ports.clockRate } }

/-- 40_sample_step.md R90: a NaN, an infinite rate, and every rate at or above SAMPLE_RATE gives an increment that is not
admitted. -/
def Obligations.RateAtOrAboveSampleRateIsRejected : Prop :=
  ∀ c sr : F32, finite32 sr = true → lt32 0x00000000#32 sr = true →
    isNaN32 c = true ∨ isInf32 c = true ∨ ge32 c sr = true → incAdmitted (div32 c sr) = false

/-- 40_sample_step.md R85: PHASE stays in `[+0.0, 1.0)` and is never `-0.0`, after reset and after every command, from every state
where it is so; the sum stays below 2.0 and the wrap is exact. -/
def Obligations.PhaseStaysInUnitInterval : Prop :=
  (ge32 Regs.reset.phase 0x00000000#32 = true ∧ lt32 Regs.reset.phase 0x3F800000#32 = true ∧
    Regs.reset.phase ≠ 0x80000000#32) ∧
  (∀ (i : Instr) (s t : State), exec i s = .next t →
    ge32 s.regs.phase 0x00000000#32 = true → lt32 s.regs.phase 0x3F800000#32 = true → s.regs.phase ≠ 0x80000000#32 →
    ge32 t.regs.phase 0x00000000#32 = true ∧ lt32 t.regs.phase 0x3F800000#32 = true ∧ t.regs.phase ≠ 0x80000000#32) ∧
  (∀ ph inc : F32, ge32 ph 0x00000000#32 = true → lt32 ph 0x3F800000#32 = true → ph ≠ 0x80000000#32 →
    ge32 inc 0x00000000#32 = true → lt32 inc 0x3F800000#32 = true →
    lt32 (add32 ph inc) 0x40000000#32 = true ∧
    (ge32 (add32 ph inc) 0x3F800000#32 = true →
      units32 (sub32 (add32 ph inc) 0x3F800000#32) = units32 (add32 ph inc) - units32 0x3F800000#32))

/-- 40_sample_step.md R86: with the constant increment `2^-k`, from PHASE = `+0.0`, a run of SAMPLEs ticks on every `2^k`-th one.
For `k` in 1..24 only: beyond it the sums are not exact and the sentence fails (Log 14). -/
def Obligations.PowerOfTwoIncrementTicksEveryPeriod : Prop :=
  ∀ (k n : Nat) (s : State) (p : Ports) (sel : BitVec 4) (data : BitVec 32), 1 ≤ k → k ≤ 24 → 1 ≤ n →
    s.edges = List.replicate n p → p.rstN = true → p.cmdValid = true → decode p.cmd = .instr (.sample sel data) →
    getFlag s.regs.status .initDone = true → s.regs.phase = 0x00000000#32 →
    div32 p.clockRate s.regs.sampleRate = BitVec.ofNat 32 ((127 - k) * 2 ^ 23) →
    ∃ t, core.run n s = .next t ∧ getFlag t.regs.status .tick = decide (2 ^ k ∣ n)

/-- 40_sample_step.md R79 with 00_scope.md R12: the constant increment `2^-25` never ticks from PHASE = `+0.0`, since at PHASE = 0.5
the exact sum is a tie that rounds back to 0.5. R86's sentence about `2^-k` is read for `k <= 24` for this reason (Log 14). -/
def Obligations.IncrementTwoToMinus25NeverTicks : Prop :=
  ∀ (n : Nat) (s : State) (p : Ports) (sel : BitVec 4) (data : BitVec 32), 1 ≤ n →
    s.edges = List.replicate n p → p.rstN = true → p.cmdValid = true → decode p.cmd = .instr (.sample sel data) →
    getFlag s.regs.status .initDone = true → s.regs.phase = 0x00000000#32 →
    div32 p.clockRate s.regs.sampleRate = 0x33000000#32 →
    ∃ t, core.run n s = .next t ∧ getFlag t.regs.status .tick = false

/-- 20_memory.md R49, R54 clause 1: where each word that a coming SAMPLE samples is its field's startup default or a word written
to the field, a SAMPLE computes with such words: PHASE_INC is unchanged or the quotient of one of them, the voices are
unchanged or the formulas of one of them and a ROM entry, and the same holds of the SAMPLEs still to come. -/
def Obligations.SampledWordsComeFromTheParameterStore : Prop :=
  ∀ (rateWrites offsetWrites : List F32) (s t : State) (p : Ports) (rest : List Ports) (sel : BitVec 4) (data : BitVec 32),
    fieldIntegrity rateWrites offsetWrites s.edges → s.edges = p :: rest → p.accepted = some (.instr (.sample sel data)) →
    step s = .next t →
    (t.regs.phaseInc = s.regs.phaseInc ∨ ∃ c ∈ Config.rateDefault :: rateWrites, t.regs.phaseInc = div32 c s.regs.sampleRate) ∧
    (t.regs.voiceFreq = s.regs.voiceFreq ∨
      ∃ o ∈ Config.offsetDefault :: offsetWrites, ∃ i : Fin 5, t.regs.voiceFreq = voiceFreqs s.rom[i] o ∧ t.regs.pitchIndex.toNat = i.val) ∧
    fieldIntegrity rateWrites offsetWrites t.edges

/-! ### Errors, flags and outputs -/

/-- 60_exceptions.md R123, at the level of the 32-bit words that READ shows: `raise` sets one STATUS bit, writes ERR_INFO only while
its bits 2:0 are zero, and leaves every other register. The numbers are those of R121. -/
def Obligations.RaiseSetsStickyBitAndRecordsFirst : Prop :=
  ∀ (e : ErrKind) (op sel : BitVec 4) (r : Regs) (n : Nat),
    (e, n) ∈ [(ErrKind.opcode, 1), (ErrKind.rate, 2), (ErrKind.draw, 3), (ErrKind.seq, 4), (ErrKind.freq, 5)] →
    statusWord (raise e op sel r).status = statusWord r.status ||| 1#32 <<< (n + 2) ∧
    errInfoWord (raise e op sel r).errInfo =
      (if (errInfoWord r.errInfo).extractLsb' 0 3 = 0#3
        then (sel ++ op ++ 0#1 ++ BitVec.ofNat 3 n).setWidth 32 else errInfoWord r.errInfo) ∧
    { raise e op sel r with status := r.status, errInfo := r.errInfo } = r

/-- 60_exceptions.md R121, R124: a command sets at most one sticky bit that was clear, and each error comes only from its
commands: NOP, RESET and READ raise nothing, INIT raises ERR_SEQ only, SAMPLE any but ERR_OPCODE. -/
def Obligations.AtMostOneErrorPerCommand : Prop :=
  ∀ (i : Instr) (s t : State) (e e' : ErrKind), exec i s = .next t →
    getFlag s.regs.status e.flag = false → getFlag t.regs.status e.flag = true →
    (i.opcode = 2#4 ∧ e = .seq ∨ i.opcode = 3#4 ∧ e ≠ .opcode) ∧
    (getFlag s.regs.status e'.flag = false → getFlag t.regs.status e'.flag = true → e' = e)

/-- 60_exceptions.md R120, R124: errors stay until reset: at every edge that does not reset the block the sticky bits that are set
stay set, and a recorded first error stays recorded. -/
def Obligations.ErrorsAreStickyUntilReset : Prop :=
  ∀ (s t : State) (p : Ports) (rest : List Ports), s.edges = p :: rest → p.resets = false → step s = .next t →
    (∀ e : ErrKind, getFlag s.regs.status e.flag = true → getFlag t.regs.status e.flag = true) ∧
    (s.regs.errInfo.code ≠ 0#3 → t.regs.errInfo = s.regs.errInfo)

/-- 60_exceptions.md R125: `err` equals the OR of STATUS bits 7 to 3, a level that stays 1 until reset. -/
def Obligations.ErrOutputIsOrOfErrorBits : Prop :=
  (∀ r : Regs, r.outputs.err = decide (r.outputs.status.extractLsb' 3 5 ≠ 0#5)) ∧
  ∀ (s t : State) (p : Ports) (rest : List Ports), s.edges = p :: rest → p.resets = false → step s = .next t →
    s.regs.outputs.err = true → t.regs.outputs.err = true

/-- 10_state.md R24: the places of the STATUS bits; bits 31:8 read as zero. -/
def Obligations.StatusWordLayout : Prop :=
  ∀ st : BitVec 8,
    (statusWord st).getLsbD 0 = getFlag st .initDone ∧ (statusWord st).getLsbD 1 = getFlag st .freqValid ∧
    (statusWord st).getLsbD 2 = getFlag st .tick ∧ (statusWord st).getLsbD 3 = getFlag st .errOpcode ∧
    (statusWord st).getLsbD 4 = getFlag st .errRate ∧ (statusWord st).getLsbD 5 = getFlag st .errDraw ∧
    (statusWord st).getLsbD 6 = getFlag st .errSeq ∧ (statusWord st).getLsbD 7 = getFlag st .errFreq ∧
    ∀ i, 8 ≤ i → (statusWord st).getLsbD i = false

/-- 42_readback.md R112, 10_state.md R39: in every state each output port shows its register: `voice_freq0..3` are VOICE_FREQ0..3
(what READ sel 6 to 9 returns), `pitch_index` is PITCH_INDEX[2:0], `freq_valid` and `env_trig` are STATUS bits 1 and 2, `status`
is the whole of STATUS, `rd_data` is RD_DATA, and `err` is the OR of STATUS bits 3 to 7. -/
def Obligations.OutputPortsShowTheirRegisters : Prop :=
  ∀ s : State,
    (∀ k : Fin 4, s.regs.outputs.voiceFreq[k] = s.regs.voiceFreq[k] ∧
      s.regs.outputs.voiceFreq[k] = reg32 s.rom s.regs (BitVec.ofNat 4 (6 + k.val))) ∧
    s.regs.outputs.pitchIndex = s.regs.pitchIndex ∧
    s.regs.outputs.pitchIndex = (reg32 s.rom s.regs 4#4).extractLsb' 0 3 ∧
    s.regs.outputs.freqValid = s.regs.status.getLsbD 1 ∧ s.regs.outputs.envTrig = s.regs.status.getLsbD 2 ∧
    s.regs.outputs.status = s.regs.status.setWidth 32 ∧ s.regs.outputs.status = reg32 s.rom s.regs 0#4 ∧
    s.regs.outputs.rdData = s.regs.rdData ∧
    s.regs.outputs.err = (s.regs.status.getLsbD 3 || s.regs.status.getLsbD 4 || s.regs.status.getLsbD 5 ||
      s.regs.status.getLsbD 6 || s.regs.status.getLsbD 7)

/-- 10_state.md R40, 60_exceptions.md R126, 70_reset_and_hazards.md R146: `env_trig` is STATUS bit 2; a SAMPLE sets it exactly where it
ticks, an INIT (valid or not) and a reset clear it, and every other edge keeps it. -/
def Obligations.EnvTrigIsTheTickLevel : Prop :=
  (∀ r : Regs, r.outputs.envTrig = r.outputs.status.getLsbD 2) ∧
  ∀ (s t : State) (p : Ports) (rest : List Ports), s.edges = p :: rest → step s = .next t →
    t.regs.outputs.envTrig =
      match p.accepted with
      | none => if p.rstN then s.regs.outputs.envTrig else false
      | some (.reserved _ _) => s.regs.outputs.envTrig
      | some (.instr (.nop _ _)) => s.regs.outputs.envTrig
      | some (.instr (.read _ _)) => s.regs.outputs.envTrig
      | some (.instr (.reset _ _)) => false
      | some (.instr (.init _ _)) => false
      | some (.instr (.sample _ _)) =>
        getFlag s.regs.status .initDone && incAdmitted (div32 p.clockRate s.regs.sampleRate) &&
          ge32 (add32 s.regs.phase (div32 p.clockRate s.regs.sampleRate)) 0x3F800000#32

/-- 10_state.md R29: TICK_COUNT goes up by one, modulo 2^32, at every SAMPLE that ticks, ERR_DRAW or not, and at no other command;
RESET clears it. -/
def Obligations.TickCountCountsTicks : Prop :=
  ∀ (i : Instr) (s t : State), exec i s = .next t →
    t.regs.tickCount.toNat =
      match i with
      | .sample _ _ => (s.regs.tickCount.toNat + (if getFlag t.regs.status .tick then 1 else 0)) % 2 ^ 32
      | .reset _ _ => 0
      | .nop _ _ => s.regs.tickCount.toNat
      | .init _ _ => s.regs.tickCount.toNat
      | .read _ _ => s.regs.tickCount.toNat

/-- 10_state.md R23, 20_memory.md R50: each register is written only by the commands its rule names, and no command touches the ROM
or the environment. -/
def Obligations.EachRegisterHasItsWriters : Prop :=
  ∀ (i : Instr) (s t : State), exec i s = .next t →
    (i.opcode ≠ 1#4 → i.opcode ≠ 2#4 → t.regs.sampleRate = s.regs.sampleRate) ∧
    (i.opcode ≠ 1#4 → i.opcode ≠ 2#4 → i.opcode ≠ 3#4 →
      t.regs.phase = s.regs.phase ∧ t.regs.phaseInc = s.regs.phaseInc ∧
      t.regs.status = s.regs.status ∧ t.regs.errInfo = s.regs.errInfo) ∧
    (i.opcode ≠ 1#4 → i.opcode ≠ 3#4 →
      t.regs.pitchIndex = s.regs.pitchIndex ∧ t.regs.tickCount = s.regs.tickCount ∧ t.regs.voiceFreq = s.regs.voiceFreq ∧
      getFlag t.regs.status .freqValid = getFlag s.regs.status .freqValid) ∧
    (i.opcode ≠ 1#4 → i.opcode ≠ 4#4 → t.regs.rdData = s.regs.rdData) ∧
    (i.opcode ≠ 1#4 → i.opcode ≠ 2#4 →
      getFlag t.regs.status .initDone = getFlag s.regs.status .initDone) ∧
    t.rom = s.rom ∧ t.ports = s.ports ∧ t.edges = s.edges

/-- 20_memory.md R50 (column `idempotent`): NOP, RESET, INIT, READ and a reserved word, executed again, change nothing more. -/
def Obligations.CommandsOtherThanSampleAreIdempotent : Prop :=
  (∀ (i : Instr) (s t : State), i.opcode ≠ 3#4 → exec i s = .next t → exec i t = .next t) ∧
  (∀ (op sel : BitVec 4) (s t : State), execReserved op sel s = .next t → execReserved op sel t = .next t)

/-- 30_encoding.md R65 with 60_exceptions.md R121: an ignored field has no effect, but that the `sel` of a SAMPLE or an INIT is what
ERR_INFO records if that command raises the first error (the model's reading, Log 7). -/
def Obligations.IgnoredFieldsHaveNoEffect : Prop :=
  (∀ (sel sel' : BitVec 4) (data data' : BitVec 32) (s : State),
    exec (.nop sel data) s = exec (.nop sel' data') s ∧ exec (.reset sel data) s = exec (.reset sel' data') s ∧
    exec (.read sel data) s = exec (.read sel data') s) ∧
  (∀ (sel sel' : BitVec 4) (data data' : BitVec 32) (s t t' : State), exec (.sample sel data) s = .next t →
    exec (.sample sel' data') s = .next t' →
    t' = { t with regs := { t.regs with errInfo := { t.regs.errInfo with sel := t'.regs.errInfo.sel } } } ∧
    (t'.regs.errInfo.sel ≠ t.regs.errInfo.sel → s.regs.errInfo.code = 0#3 ∧ t.regs.errInfo.sel = sel)) ∧
  (∀ (sel sel' : BitVec 4) (data : BitVec 32) (s t t' : State), exec (.init sel data) s = .next t →
    exec (.init sel' data) s = .next t' →
    t' = { t with regs := { t.regs with errInfo := { t.regs.errInfo with sel := t'.regs.errInfo.sel } } } ∧
    (t'.regs.errInfo.sel ≠ t.regs.errInfo.sel → s.regs.errInfo.code = 0#3 ∧ t.regs.errInfo.sel = sel))

/-- 20_memory.md R49, R50: the parameter words and the draw reach the registers through SAMPLE only. -/
def Obligations.OnlySampleReadsTheParameterPorts : Prop :=
  ∀ (i : Instr) (s t : State) (c o : F32) (d : BitVec 3), i.opcode ≠ 3#4 → exec i s = .next t →
    exec i { s with ports := { s.ports with clockRate := c, freqOffset := o, rndIdx := d } } =
      .next { t with ports := { s.ports with clockRate := c, freqOffset := o, rndIdx := d } }

/-! ### The invariant -/

/-- 70_reset_and_hazards.md R140 with the rules `RegsInv` names: the invariant holds at reset. -/
def Obligations.InvariantHoldsAtReset : Prop := RegsInv State.reset.regs

/-- 10_state.md R25 to R28, R31, R33, 40_sample_step.md R83, R85, 60_exceptions.md R121 to R124: every step from every state with the
invariant keeps it. -/
def Obligations.StepKeepsInvariant : Prop :=
  ∀ s t : State, RegsInv s.regs → step s = .next t → RegsInv t.regs

/-- 70_reset_and_hazards.md R140: whatever the state at power-up, once an edge resets the block the invariant holds after it and
after every later edge, whatever the environment drives. -/
def Obligations.InvariantHoldsOnceResetIsApplied : Prop :=
  ∀ (s t : State) (p : Ports) (rest : List Ports) (k : Nat), s.edges = p :: rest → p.resets = true →
    core.run (k + 1) s = .next t → RegsInv t.regs

/-! ### Binary32 arithmetic -/

/-- 00_scope.md R12: the sum of two finite values is the exact sum rounded to nearest, ties to even (the last fraction bit of the
result is 0 where another finite value is as near), an infinity of its sign where it is too large, and a zero is `+0.0`
but for `(-0.0) + (-0.0)`; that this one sum is `-0.0` is the model's reading, Log 9 (R12's list does not have it). Values
are in units of 2^-149; (2^25 - 1) * 2^252 is halfway from the largest finite value to 2^128. -/
def Obligations.AddRoundsToNearestEven : Prop :=
  ∀ (a b : F32) (x : Int), finite32 a = true → finite32 b = true → x = units32 a + units32 b →
    (x = 0 → add32 a b = if signBit a && signBit b then 0x80000000#32 else 0x00000000#32) ∧
    (x ≠ 0 → signBit (add32 a b) = decide (x < 0)) ∧
    (|x| < (2 ^ 25 - 1) * 2 ^ 252 → finite32 (add32 a b) = true ∧ ∀ c : F32, finite32 c = true →
      |units32 (add32 a b) - x| ≤ |units32 c - x| ∧
      (|units32 c - x| = |units32 (add32 a b) - x| → units32 c ≠ units32 (add32 a b) → (add32 a b).getLsbD 0 = false)) ∧
    ((2 ^ 25 - 1) * 2 ^ 252 ≤ |x| → add32 a b = if x < 0 then 0xFF800000#32 else 0x7F800000#32)

/-- 00_scope.md R12: the quotient of a finite value by a finite nonzero one is the exact quotient rounded to nearest, ties to even,
with the XOR of the signs, and an infinity where it is too large. That a quotient which is or rounds to a zero has that sign
too is the model's reading, Log 9 (R12's list does not have it). -/
def Obligations.DivRoundsToNearestEven : Prop :=
  ∀ (a b : F32) (x y : Int), finite32 a = true → finite32 b = true → units32 b ≠ 0 → x = units32 a * 2 ^ 149 →
    y = units32 b →
    signBit (div32 a b) = (signBit a != signBit b) ∧
    (|x| < (2 ^ 25 - 1) * 2 ^ 252 * |y| → finite32 (div32 a b) = true ∧ ∀ c : F32, finite32 c = true →
      |units32 (div32 a b) * y - x| ≤ |units32 c * y - x| ∧
      (|units32 c * y - x| = |units32 (div32 a b) * y - x| → units32 c ≠ units32 (div32 a b) →
        (div32 a b).getLsbD 0 = false)) ∧
    ((2 ^ 25 - 1) * 2 ^ 252 * |y| ≤ |x| → isInf32 (div32 a b) = true)

/-- 00_scope.md R10, R12: a NaN operand gives the canonical NaN and every NaN result is that one; `x - x` is `+0.0`; `(+0.0) + (-0.0)`
is `+0.0`; a finite nonzero value over a zero is an infinity of the XOR sign; `0/0` is NaN; a comparison with a NaN is false,
and the two zeros are equal. -/
def Obligations.SpecialValueArithmetic : Prop :=
  (∀ a b : F32, isNaN32 a = true ∨ isNaN32 b = true →
    add32 a b = 0x7FC00000#32 ∧ sub32 a b = 0x7FC00000#32 ∧ div32 a b = 0x7FC00000#32 ∧
    ge32 a b = false ∧ lt32 a b = false) ∧
  (∀ a b : F32, (isNaN32 (add32 a b) = true → add32 a b = 0x7FC00000#32) ∧
    (isNaN32 (sub32 a b) = true → sub32 a b = 0x7FC00000#32) ∧
    (isNaN32 (div32 a b) = true → div32 a b = 0x7FC00000#32)) ∧
  (∀ a : F32, finite32 a = true → sub32 a a = 0x00000000#32) ∧
  add32 0x00000000#32 0x80000000#32 = 0x00000000#32 ∧
  (∀ a z : F32, finite32 a = true → z = 0x00000000#32 ∨ z = 0x80000000#32 →
    (units32 a ≠ 0 → div32 a z = if signBit a != signBit z then 0xFF800000#32 else 0x7F800000#32) ∧
    (units32 a = 0 → div32 a z = 0x7FC00000#32)) ∧
  ge32 0x80000000#32 0x00000000#32 = true ∧ ge32 0x00000000#32 0x80000000#32 = true ∧
  lt32 0x80000000#32 0x00000000#32 = false
end

