-- ==== Sys2Proof/Laws/Binary32.lean ====
section
/-! SUPPORT. What the binary32 operations of Machine/Binary32.lean can do: the layout, the rounding (exact on representable
values, monotone), and the cases of the sum and the quotient. -/

namespace Sys2Proof.Machine

/-! ### The layout -/

theorem magBits_lt (a : F32) : magBits a < 2 ^ 31 := Nat.mod_lt _ (by decide)

/-- A word is its sign and its magnitude bits. -/
theorem toNat_eq_sign_mag (a : F32) : a.toNat = (if signBit a then 2 ^ 31 else 0) + magBits a := by
  have h : a.toNat < 2 ^ 32 := a.isLt
  cases hs : signBit a <;> simp only [signBit, decide_eq_true_eq, decide_eq_false_iff_not] at hs <;>
    simp only [magBits, if_true, Bool.false_eq_true, if_false] <;> omega

theorem pack32_toNat {b : Nat} (neg : Bool) (h : b < 2 ^ 31) :
    (pack32 neg b).toNat = (if neg then 2 ^ 31 else 0) + b := by
  cases neg <;> simp only [pack32, BitVec.toNat_ofNat, if_true, Bool.false_eq_true, if_false] <;> omega

theorem magBits_pack32 {b : Nat} (neg : Bool) (h : b < 2 ^ 31) : magBits (pack32 neg b) = b := by
  rw [magBits, pack32_toNat neg h]
  cases neg <;> simp <;> omega

theorem signBit_pack32 {b : Nat} (neg : Bool) (h : b < 2 ^ 31) : signBit (pack32 neg b) = neg := by
  rw [signBit, pack32_toNat neg h]
  cases neg <;> simp
  omega

theorem pack32_sign_mag (a : F32) : pack32 (signBit a) (magBits a) = a := by
  apply BitVec.eq_of_toNat_eq
  rw [pack32_toNat _ (magBits_lt a), ← toNat_eq_sign_mag]

theorem neg32_toNat (a : F32) : (neg32 a).toNat = (if signBit a then 0 else 2 ^ 31) + magBits a := by
  have key : neg32 a = a + 0x80000000#32 := by
    apply BitVec.eq_of_getLsbD_eq
    intro i hi
    simp only [neg32, BitVec.getLsbD_xor, BitVec.getLsbD_add hi]
    have hc : BitVec.carry i a 0x80000000#32 false = false := by
      rw [BitVec.carry, decide_eq_false_iff_not]
      have h1 : a.toNat % 2 ^ i < 2 ^ i := Nat.mod_lt _ (by positivity)
      have h2 : (0x80000000#32).toNat % 2 ^ i = 0 := by
        interval_cases i <;> decide
      simp only [h2, Bool.toNat_false]
      omega
    rw [hc]
    simp
  have hlt : a.toNat < 2 ^ 32 := a.isLt
  rw [key, BitVec.toNat_add]
  cases hs : signBit a <;> simp only [signBit, decide_eq_true_eq, decide_eq_false_iff_not] at hs <;>
    simp only [magBits, BitVec.toNat_ofNat, if_true, Bool.false_eq_true, if_false] <;> omega

@[simp] theorem magBits_neg32 (a : F32) : magBits (neg32 a) = magBits a := by
  have h := magBits_lt a
  rw [magBits, neg32_toNat]
  split <;> omega

@[simp] theorem signBit_neg32 (a : F32) : signBit (neg32 a) = !signBit a := by
  have h := magBits_lt a
  rw [signBit, neg32_toNat]
  cases signBit a <;> simp
  omega

@[simp] theorem units32_neg32 (a : F32) : units32 (neg32 a) = -units32 a := by
  rw [units32, units32, signBit_neg32, magBits_neg32]
  cases signBit a <;> simp

/-! ### Units -/

theorem unitsOf_small {b : Nat} (h : b < 2 ^ 24) : unitsOf b = b := by
  unfold unitsOf
  split
  · rfl
  · have : b / 2 ^ 23 = 1 := by omega
    rw [this]
    omega

/-- The pattern of a significand `m` in the binade `k`. -/
theorem unitsOf_normal {k m : Nat} (hm : 2 ^ 23 ≤ m) (hm' : m ≤ 2 ^ 24) : unitsOf (k * 2 ^ 23 + m) = m * 2 ^ k := by
  unfold unitsOf
  rcases Nat.lt_or_eq_of_le hm' with h | rfl
  · have hd : (k * 2 ^ 23 + m) / 2 ^ 23 = k + 1 := by omega
    have hr : (k * 2 ^ 23 + m) % 2 ^ 23 = m - 2 ^ 23 := by omega
    rw [hd, hr, if_neg (by omega), Nat.add_sub_cancel' hm, Nat.add_sub_cancel]
  · have hd : (k * 2 ^ 23 + 2 ^ 24) / 2 ^ 23 = k + 2 := by omega
    have hr : (k * 2 ^ 23 + 2 ^ 24) % 2 ^ 23 = 0 := by omega
    rw [hd, hr, if_neg (by omega)]
    have : 2 ^ (k + 2 - 1) = 2 ^ k * 2 := by rw [show k + 2 - 1 = k + 1 by omega, pow_succ]
    rw [this]
    ring

/-- Every pattern is small, or a significand in a binade above the first. -/
theorem pattern_cases (b : Nat) :
    b < 2 ^ 24 ∨ ∃ k m, 1 ≤ k ∧ 2 ^ 23 ≤ m ∧ m < 2 ^ 24 ∧ b = k * 2 ^ 23 + m := by
  by_cases h : b < 2 ^ 24
  · exact .inl h
  · exact .inr ⟨b / 2 ^ 23 - 1, 2 ^ 23 + b % 2 ^ 23, by omega, by omega, by omega, by omega⟩

theorem unitsOf_lt_succ (b : Nat) : unitsOf b < unitsOf (b + 1) := by
  rcases pattern_cases b with h | ⟨k, m, -, h1, h2, rfl⟩
  · rw [unitsOf_small h]
    rcases Nat.lt_or_ge (b + 1) (2 ^ 24) with h' | h'
    · rw [unitsOf_small h']
      omega
    · have hb : b + 1 = 0 * 2 ^ 23 + 2 ^ 24 := by omega
      rw [hb, unitsOf_normal (by decide) (le_refl _)]
      omega
  · rw [show k * 2 ^ 23 + m + 1 = k * 2 ^ 23 + (m + 1) by omega, unitsOf_normal h1 (by omega),
      unitsOf_normal (by omega) (by omega)]
    exact Nat.mul_lt_mul_of_pos_right (by omega) (by positivity)

/-- Larger magnitude bits are a larger magnitude. -/
theorem unitsOf_strictMono : StrictMono unitsOf := strictMono_nat_of_lt_succ unitsOf_lt_succ

theorem unitsOf_zero : unitsOf 0 = 0 := rfl

theorem unitsOf_eq_zero_iff (b : Nat) : unitsOf b = 0 ↔ b = 0 := by
  rw [← unitsOf_zero]
  exact unitsOf_strictMono.injective.eq_iff

/-! ### Rounding -/

theorem le_nearestEven (num den : Nat) : num / den ≤ nearestEven num den := by
  unfold nearestEven
  split
  · exact le_refl _
  · split <;> omega

theorem nearestEven_le_succ (num den : Nat) : nearestEven num den ≤ num / den + 1 := by
  unfold nearestEven
  split
  · omega
  · split <;> omega

theorem nearestEven_mul (m : Nat) {den : Nat} (h : 0 < den) : nearestEven (m * den) den = m := by
  unfold nearestEven
  rw [Nat.mul_mod_left, Nat.mul_div_cancel m h, if_pos (by omega)]

theorem nearestEven_mono {num num' : Nat} (den : Nat) (h : num ≤ num') :
    nearestEven num den ≤ nearestEven num' den := by
  rcases Nat.lt_or_eq_of_le (Nat.div_le_div_right (c := den) h) with hlt | heq
  · exact (nearestEven_le_succ num den).trans ((Nat.succ_le_of_lt hlt).trans (le_nearestEven num' den))
  · have hr : num % den ≤ num' % den := by
      have h1 := Nat.div_add_mod num den
      have h2 := Nat.div_add_mod num' den
      rw [heq] at h1
      omega
    unfold nearestEven
    rw [heq]
    split_ifs <;> omega

theorem quotient_lt_place (num den : Nat) : num / den < 2 ^ (placeOf num den + 24) := by
  have h := Nat.lt_log2_self (n := num / den)
  refine h.trans_le (Nat.pow_le_pow_right (by decide) ?_)
  unfold placeOf
  omega

theorem place_le_quotient {num den : Nat} (h : 0 < placeOf num den) : 2 ^ (placeOf num den + 23) ≤ num / den := by
  have hne : num / den ≠ 0 := by
    intro h0
    simp [placeOf, h0] at h
  have hl := Nat.log2_self_le hne
  have : placeOf num den + 23 = Nat.log2 (num / den) := by
    unfold placeOf at h ⊢
    omega
  rw [this]
  exact hl

theorem placeOf_mono {num num' : Nat} (den : Nat) (h : num ≤ num') : placeOf num den ≤ placeOf num' den := by
  have hq : num / den ≤ num' / den := Nat.div_le_div_right h
  have : Nat.log2 (num / den) ≤ Nat.log2 (num' / den) := by
    rw [Nat.log2_eq_log_two, Nat.log2_eq_log_two]
    exact Nat.log_mono_right hq
  unfold placeOf
  omega

/-- The rounded significand fits the binade, the carry into the next binade included. -/
theorem significand_le (num den : Nat) : nearestEven num (den * 2 ^ placeOf num den) ≤ 2 ^ 24 := by
  have h := quotient_lt_place num den
  have hq : num / (den * 2 ^ placeOf num den) < 2 ^ 24 := by
    rw [← Nat.div_div_eq_div_mul]
    apply Nat.div_lt_of_lt_mul
    rwa [← pow_add]
  exact (nearestEven_le_succ _ _).trans hq

/-- Above the first binade the rounded significand has its leading one. -/
theorem le_significand {num den : Nat} (h : 0 < placeOf num den) :
    2 ^ 23 ≤ nearestEven num (den * 2 ^ placeOf num den) := by
  have hl := place_le_quotient h
  refine le_trans ?_ (le_nearestEven _ _)
  rw [← Nat.div_div_eq_div_mul, Nat.le_div_iff_mul_le (by positivity), ← pow_add, Nat.add_comm]
  exact hl

theorem roundUnits_le (num den : Nat) : roundUnits num den ≤ infBits := min_le_right _ _

theorem roundUnits_lt (num den : Nat) : roundUnits num den < 2 ^ 31 := (roundUnits_le num den).trans_lt (by decide)

/-- Rounding never reverses an order. -/
theorem roundUnits_mono {num num' : Nat} (den : Nat) (h : num ≤ num') :
    roundUnits num den ≤ roundUnits num' den := by
  unfold roundUnits
  apply min_le_min_right
  rcases Nat.lt_or_eq_of_le (placeOf_mono den h) with hlt | heq
  · have h1 := significand_le num den
    have h2 := le_significand (num := num') (den := den) (by omega)
    have h3 : (placeOf num den + 1) * 2 ^ 23 ≤ placeOf num' den * 2 ^ 23 := Nat.mul_le_mul_right _ hlt
    omega
  · rw [← heq]
    exact Nat.add_le_add_left (nearestEven_mono _ h) _

/-- A representable magnitude rounds to itself. -/
theorem roundUnits_unitsOf {b : Nat} (h : b ≤ infBits) : roundUnits (unitsOf b) 1 = b := by
  unfold roundUnits
  rcases pattern_cases b with hb | ⟨k, m, hk, h1, h2, rfl⟩
  · have hp : placeOf b 1 = 0 := by
      have : Nat.log2 b < 24 := by
        rcases Nat.eq_zero_or_pos b with rfl | hpos
        · decide
        · exact (Nat.log2_lt (by omega)).mpr hb
      unfold placeOf
      rw [Nat.div_one]
      omega
    rw [unitsOf_small hb, hp]
    have := nearestEven_mul b (den := 1) (by decide)
    rw [Nat.mul_one] at this
    simpa [this] using h
  · have hu : unitsOf (k * 2 ^ 23 + m) = m * 2 ^ k := unitsOf_normal h1 h2.le
    have hp : placeOf (m * 2 ^ k) 1 = k := by
      have hne : m * 2 ^ k ≠ 0 := Nat.mul_ne_zero (by omega) (by positivity)
      have hlo : 2 ^ (k + 23) ≤ m * 2 ^ k := by
        rw [pow_add, Nat.mul_comm]
        exact Nat.mul_le_mul_right _ h1
      have hhi : m * 2 ^ k < 2 ^ (k + 24) := by
        rw [pow_add, Nat.mul_comm (2 ^ k)]
        exact Nat.mul_lt_mul_of_pos_right h2 (by positivity)
      have ha := (Nat.le_log2 hne).mpr hlo
      have hb := (Nat.log2_lt hne).mpr hhi
      unfold placeOf
      rw [Nat.div_one]
      omega
    rw [hu, hp, Nat.one_mul, nearestEven_mul m (by positivity)]
    exact min_eq_left h

/-! ### The cases of the operations -/

theorem finite32_iff (a : F32) : finite32 a = true ↔ magBits a < infBits := by simp [finite32]

theorem finite32_not_nan {a : F32} (h : finite32 a = true) : isNaN32 a = false := by
  rw [finite32_iff] at h
  simp [isNaN32]
  omega

theorem finite32_not_inf {a : F32} (h : finite32 a = true) : isInf32 a = false := by
  rw [finite32_iff] at h
  simp [isInf32]
  omega

/-- The sum of two finite values: the exact sum rounded, or a signed zero. -/
theorem add32_finite {a b : F32} (ha : finite32 a = true) (hb : finite32 b = true) :
    add32 a b =
      if units32 a + units32 b = 0 then pack32 (signBit a && signBit b) 0
      else pack32 (decide (units32 a + units32 b < 0)) (roundUnits (units32 a + units32 b).natAbs 1) := by
  simp [add32, finite32_not_nan ha, finite32_not_nan hb, finite32_not_inf ha, finite32_not_inf hb]

theorem add32_nan {a b : F32} (h : isNaN32 a = true ∨ isNaN32 b = true) : add32 a b = nan32 := by
  rcases h with h | h <;> simp [add32, h]

/-- A finite value over a finite nonzero one: the exact quotient rounded, the sign the XOR of the signs. -/
theorem div32_finite {a b : F32} (ha : finite32 a = true) (hb : finite32 b = true) (h0 : magBits b ≠ 0) :
    div32 a b =
      pack32 (signBit a != signBit b) (roundUnits (unitsOf (magBits a) * 2 ^ 149) (unitsOf (magBits b))) := by
  simp [div32, finite32_not_nan ha, finite32_not_nan hb, finite32_not_inf ha, finite32_not_inf hb, h0]

theorem div32_nan {a b : F32} (h : isNaN32 a = true ∨ isNaN32 b = true) : div32 a b = nan32 := by
  rcases h with h | h <;> simp [div32, h]

theorem ge32_iff (a b : F32) :
    ge32 a b = true ↔ isNaN32 a = false ∧ isNaN32 b = false ∧ units32 b ≤ units32 a := by
  simp [ge32, and_assoc]

theorem lt32_iff (a b : F32) :
    lt32 a b = true ↔ isNaN32 a = false ∧ isNaN32 b = false ∧ units32 a < units32 b := by
  simp [lt32, and_assoc]

/-- With the sign clear, the words are ordered as their values. -/
theorem units32_of_sign_clear {a : F32} (h : a.toNat < 2 ^ 31) : units32 a = (unitsOf a.toNat : Int) := by
  have hs : signBit a = false := by
    simp [signBit]
    omega
  have hm : magBits a = a.toNat := Nat.mod_eq_of_lt h
  simp [units32, hs, hm]

end Sys2Proof.Machine
end

