-- ==== Sys2Proof/Laws/Decode.lean ====
section
/-! SUPPORT. The fields of a packed command word, and the numbering of the select map. -/

namespace Sys2Proof

/-- Every bit of a packed word comes from one field (30_encoding.md R61). -/
theorem packCmd_bit (op sel : BitVec 4) (data : BitVec 32) (i : Nat) :
    (packCmd op sel data).getLsbD i =
      if i < 32 then data.getLsbD i else if i - 32 < 4 then sel.getLsbD (i - 32) else op.getLsbD (i - 32 - 4) := by
  show ((op ++ sel ++ data : BitVec (4 + 4 + 32))).getLsbD i = _
  rw [BitVec.getLsbD_append, BitVec.getLsbD_append]

@[simp] theorem opField_packCmd (op sel : BitVec 4) (data : BitVec 32) : opField (packCmd op sel data) = op := by
  apply BitVec.eq_of_getLsbD_eq
  intro i hi
  simp [opField, packCmd_bit, hi, show ¬(36 + i < 32) by omega,
    show ¬(36 + i - 32 < 4) by omega, show 36 + i - 32 - 4 = i by omega]

@[simp] theorem selField_packCmd (op sel : BitVec 4) (data : BitVec 32) : selField (packCmd op sel data) = sel := by
  apply BitVec.eq_of_getLsbD_eq
  intro i hi
  simp [selField, packCmd_bit, hi]

@[simp] theorem dataField_packCmd (op sel : BitVec 4) (data : BitVec 32) : dataField (packCmd op sel data) = data := by
  apply BitVec.eq_of_getLsbD_eq
  intro i hi
  simp [dataField, packCmd_bit, hi]

/-- Every name of the select map has its number, and every number its name (10_state.md R23). -/
@[simp] theorem regOfSel_number (r : RegName) : regOfSel r.number = r := by cases r <;> rfl

@[simp] theorem number_regOfSel (sel : BitVec 4) : (regOfSel sel).number = sel := by
  revert sel
  decide

end Sys2Proof
end

