-- ==== Sys2Proof/Laws/State.lean ====
section
/-! SUPPORT. One lemma per field per update of the state, each true by rfl. -/

namespace Sys2Proof.Machine

section SetFlag
variable (r : Regs) (f : Flag) (v : Bool)
@[simp] theorem Regs.setFlag_status : (r.setFlag f v).status = putFlag r.status f v := rfl
@[simp] theorem Regs.setFlag_sampleRate : (r.setFlag f v).sampleRate = r.sampleRate := rfl
@[simp] theorem Regs.setFlag_phase : (r.setFlag f v).phase = r.phase := rfl
@[simp] theorem Regs.setFlag_phaseInc : (r.setFlag f v).phaseInc = r.phaseInc := rfl
@[simp] theorem Regs.setFlag_pitchIndex : (r.setFlag f v).pitchIndex = r.pitchIndex := rfl
@[simp] theorem Regs.setFlag_tickCount : (r.setFlag f v).tickCount = r.tickCount := rfl
@[simp] theorem Regs.setFlag_voiceFreq : (r.setFlag f v).voiceFreq = r.voiceFreq := rfl
@[simp] theorem Regs.setFlag_errInfo : (r.setFlag f v).errInfo = r.errInfo := rfl
@[simp] theorem Regs.setFlag_rdData : (r.setFlag f v).rdData = r.rdData := rfl
end SetFlag

section Raise
variable (e : ErrKind) (op sel : BitVec 4) (r : Regs)
@[simp] theorem raise_status : (raise e op sel r).status = putFlag r.status e.flag true := rfl
@[simp] theorem raise_sampleRate : (raise e op sel r).sampleRate = r.sampleRate := rfl
@[simp] theorem raise_phase : (raise e op sel r).phase = r.phase := rfl
@[simp] theorem raise_phaseInc : (raise e op sel r).phaseInc = r.phaseInc := rfl
@[simp] theorem raise_pitchIndex : (raise e op sel r).pitchIndex = r.pitchIndex := rfl
@[simp] theorem raise_tickCount : (raise e op sel r).tickCount = r.tickCount := rfl
@[simp] theorem raise_voiceFreq : (raise e op sel r).voiceFreq = r.voiceFreq := rfl
@[simp] theorem raise_errInfo : (raise e op sel r).errInfo = recordFirst e op sel r.errInfo := rfl
@[simp] theorem raise_rdData : (raise e op sel r).rdData = r.rdData := rfl
end Raise

section Reset
@[simp] theorem Regs.reset_status : Regs.reset.status = 0#8 := rfl
@[simp] theorem Regs.reset_sampleRate : Regs.reset.sampleRate = 0#32 := rfl
@[simp] theorem Regs.reset_phase : Regs.reset.phase = 0#32 := rfl
@[simp] theorem Regs.reset_phaseInc : Regs.reset.phaseInc = 0#32 := rfl
@[simp] theorem Regs.reset_pitchIndex : Regs.reset.pitchIndex = 0#3 := rfl
@[simp] theorem Regs.reset_tickCount : Regs.reset.tickCount = 0#32 := rfl
@[simp] theorem Regs.reset_voiceFreq : Regs.reset.voiceFreq = #v[0#32, 0#32, 0#32, 0#32] := rfl
@[simp] theorem Regs.reset_errInfo : Regs.reset.errInfo = { code := 0#3, op := 0#4, sel := 0#4 } := rfl
@[simp] theorem Regs.reset_rdData : Regs.reset.rdData = 0#32 := rfl
@[simp] theorem State.reset_regs : State.reset.regs = Regs.reset := rfl
@[simp] theorem State.reset_rom : State.reset.rom = Config.pitchTable := rfl
@[simp] theorem State.reset_edges : State.reset.edges = [] := rfl
end Reset

section Updates
variable (s : State) (r : Regs) (p : Ports) (rest : List Ports) (w : Cmd)
@[simp] theorem State.withRegs_regs : (s.withRegs r).regs = r := rfl
@[simp] theorem State.withRegs_rom : (s.withRegs r).rom = s.rom := rfl
@[simp] theorem State.withRegs_ports : (s.withRegs r).ports = s.ports := rfl
@[simp] theorem State.withRegs_edges : (s.withRegs r).edges = s.edges := rfl
@[simp] theorem State.resetBlock_regs : s.resetBlock.regs = Regs.reset := rfl
@[simp] theorem State.resetBlock_rom : s.resetBlock.rom = s.rom := rfl
@[simp] theorem State.resetBlock_ports : s.resetBlock.ports = s.ports := rfl
@[simp] theorem State.resetBlock_edges : s.resetBlock.edges = s.edges := rfl
@[simp] theorem State.acceptEdge_regs : (s.acceptEdge p rest).regs = s.regs := rfl
@[simp] theorem State.acceptEdge_rom : (s.acceptEdge p rest).rom = s.rom := rfl
@[simp] theorem State.acceptEdge_ports : (s.acceptEdge p rest).ports = p := rfl
@[simp] theorem State.acceptEdge_edges : (s.acceptEdge p rest).edges = rest := rfl
@[simp] theorem Ports.presenting_rstN : (p.presenting w).rstN = true := rfl
@[simp] theorem Ports.presenting_cmdValid : (p.presenting w).cmdValid = true := rfl
@[simp] theorem Ports.presenting_cmd : (p.presenting w).cmd = w := rfl
@[simp] theorem Ports.presenting_clockRate : (p.presenting w).clockRate = p.clockRate := rfl
@[simp] theorem Ports.presenting_freqOffset : (p.presenting w).freqOffset = p.freqOffset := rfl
@[simp] theorem Ports.presenting_rndIdx : (p.presenting w).rndIdx = p.rndIdx := rfl
end Updates

/-- Presenting a command changes the coming edges only. -/
theorem presentCommand_frame (s : State) (w : Cmd) :
    (presentCommand s w).regs = s.regs ∧ (presentCommand s w).rom = s.rom ∧ (presentCommand s w).ports = s.ports := by
  unfold presentCommand
  split <;> exact ⟨rfl, rfl, rfl⟩

end Sys2Proof.Machine
end

