-- ==== Sys2Proof/Laws/Flags.lean ====
section
/-! SUPPORT. What writing a flag and raising an error can do. -/

namespace Sys2Proof.Machine

/-- A flag after a write: the written value, or what it was. -/
@[simp] theorem getFlag_putFlag (st : BitVec 8) (f g : Flag) (v : Bool) :
    getFlag (putFlag st f v) g = if g = f then v else getFlag st g := by
  cases v <;> cases f <;> cases g <;> simp [getFlag, putFlag, Flag.bit]

@[simp] theorem getFlag_zero (f : Flag) : getFlag 0#8 f = false := by
  cases f <;> rfl

/-- Two status registers with the same flags are the same. -/
theorem status_ext {a b : BitVec 8} (h : ∀ f, getFlag a f = getFlag b f) : a = b := by
  apply BitVec.eq_of_getLsbD_eq
  intro i hi
  have h0 := h .initDone
  have h1 := h .freqValid
  have h2 := h .tick
  have h3 := h .errOpcode
  have h4 := h .errRate
  have h5 := h .errDraw
  have h6 := h .errSeq
  have h7 := h .errFreq
  interval_cases i <;> assumption

/-- Every flag is one bit of the STATUS word. -/
theorem statusWord_bit (st : BitVec 8) (f : Flag) : (statusWord st).getLsbD f.bit = getFlag st f := by
  cases f <;> simp [statusWord, getFlag, Flag.bit]

theorem anyError_eq_false_iff (st : BitVec 8) : anyError st = false ↔ ∀ e : ErrKind, getFlag st e.flag = false := by
  constructor
  · intro h e
    simp only [anyError, Bool.or_eq_false_iff] at h
    obtain ⟨⟨⟨⟨h1, h2⟩, h3⟩, h4⟩, h5⟩ := h
    cases e <;> assumption
  · intro h
    simp [anyError, h .opcode, h .rate, h .draw, h .seq, h .freq, show Flag.errOpcode = ErrKind.opcode.flag from rfl,
      show Flag.errRate = ErrKind.rate.flag from rfl, show Flag.errDraw = ErrKind.draw.flag from rfl,
      show Flag.errSeq = ErrKind.seq.flag from rfl, show Flag.errFreq = ErrKind.freq.flag from rfl]

@[simp] theorem anyError_raise (e : ErrKind) (st : BitVec 8) : anyError (putFlag st e.flag true) = true := by
  cases e <;> simp [anyError, ErrKind.flag]

@[simp] theorem anyError_put_tick (st : BitVec 8) (v : Bool) : anyError (putFlag st .tick v) = anyError st := by
  simp [anyError]

@[simp] theorem anyError_put_initDone (st : BitVec 8) (v : Bool) : anyError (putFlag st .initDone v) = anyError st := by
  simp [anyError]

@[simp] theorem anyError_put_freqValid (st : BitVec 8) (v : Bool) : anyError (putFlag st .freqValid v) = anyError st := by
  simp [anyError]

theorem ErrKind.code_ne_zero (e : ErrKind) : e.code ≠ 0#3 := by cases e <;> decide

theorem ErrKind.code_injective : Function.Injective ErrKind.code := by
  intro a b h
  cases a <;> cases b <;> first | rfl | exact absurd h (by decide)

/-- The record keeps the first error (60_exceptions.md R123, R124). -/
theorem recordFirst_of_recorded {e : ErrKind} {op sel : BitVec 4} {i : ErrInfo} (h : i.code ≠ 0#3) :
    recordFirst e op sel i = i := if_neg h

theorem recordFirst_of_clean {e : ErrKind} {op sel : BitVec 4} {i : ErrInfo} (h : i.code = 0#3) :
    recordFirst e op sel i = { code := e.code, op := op, sel := sel } := if_pos h

theorem recordFirst_code_ne_zero (e : ErrKind) (op sel : BitVec 4) (i : ErrInfo) : (recordFirst e op sel i).code ≠ 0#3 := by
  unfold recordFirst
  split
  · exact e.code_ne_zero
  · assumption

end Sys2Proof.Machine
end

