-- ==== Sys2Proof/Laws/PerInstr.lean ====
section
/-! SUPPORT. A family of statements about each command as syntax: its word carries its opcode and both operand fields
(spec/30_encoding.md R61). -/

namespace Sys2Proof.Laws.WordFields

/-- The word of `i` has the fields of `i`. -/
def Statement (i : Instr) : Prop :=
  opField (encode i) = i.opcode ∧ selField (encode i) = i.sel ∧ dataField (encode i) = i.data

theorem nop (sel : BitVec 4) (data : BitVec 32) : Statement (.nop sel data) := by
  simp [Statement, encode]

theorem reset (sel : BitVec 4) (data : BitVec 32) : Statement (.reset sel data) := by
  simp [Statement, encode]

theorem init (sel : BitVec 4) (data : BitVec 32) : Statement (.init sel data) := by
  simp [Statement, encode]

theorem sample (sel : BitVec 4) (data : BitVec 32) : Statement (.sample sel data) := by
  simp [Statement, encode]

theorem read (sel : BitVec 4) (data : BitVec 32) : Statement (.read sel data) := by
  simp [Statement, encode]

end Sys2Proof.Laws.WordFields
end

