-- ==== Sys2Proof/Laws/Sample.lean ====
section
/-! SUPPORT. What SAMPLE can do to the registers, said once: one of the five cases of spec/40_sample_step.md R76 to R83. -/

namespace Sys2Proof.Machine

section Advanced
variable (inc : F32) (r : Regs)
@[simp] theorem advanceRegs_status :
    (advanceRegs inc r).status = putFlag r.status .tick (sampleTicks inc r) := rfl
@[simp] theorem advanceRegs_sampleRate : (advanceRegs inc r).sampleRate = r.sampleRate := rfl
@[simp] theorem advanceRegs_phase : (advanceRegs inc r).phase = wrappedPhase inc r := rfl
@[simp] theorem advanceRegs_phaseInc : (advanceRegs inc r).phaseInc = inc := rfl
@[simp] theorem advanceRegs_pitchIndex : (advanceRegs inc r).pitchIndex = r.pitchIndex := rfl
@[simp] theorem advanceRegs_tickCount : (advanceRegs inc r).tickCount = r.tickCount := rfl
@[simp] theorem advanceRegs_voiceFreq : (advanceRegs inc r).voiceFreq = r.voiceFreq := rfl
@[simp] theorem advanceRegs_errInfo : (advanceRegs inc r).errInfo = r.errInfo := rfl
@[simp] theorem advanceRegs_rdData : (advanceRegs inc r).rdData = r.rdData := rfl
end Advanced

/-- What a tick with a valid draw leaves unchanged (40_sample_step.md R82, R83). -/
theorem tickVoices_frame (rom : Vector F32 5) (o : F32) (sel : BitVec 4) (d : Fin 5) (r : Regs) :
    (tickVoices rom o sel d r).sampleRate = r.sampleRate ∧ (tickVoices rom o sel d r).phase = r.phase ∧
      (tickVoices rom o sel d r).phaseInc = r.phaseInc ∧ (tickVoices rom o sel d r).tickCount = r.tickCount ∧
      (tickVoices rom o sel d r).rdData = r.rdData := by
  simp only [tickVoices]
  split <;> exact ⟨rfl, rfl, rfl, rfl, rfl⟩

/-- What it writes, whether or not the finiteness check raises ERR_FREQ. -/
theorem tickVoices_writes (rom : Vector F32 5) (o : F32) (sel : BitVec 4) (d : Fin 5) (r : Regs) :
    (tickVoices rom o sel d r).pitchIndex = BitVec.ofNat 3 d.val ∧
      (tickVoices rom o sel d r).voiceFreq = voiceFreqs (pitchTableAt rom d) o := by
  simp only [tickVoices]
  split <;> exact ⟨rfl, rfl⟩

/-- The five ways a SAMPLE ends (40_sample_step.md R76, R78, R80, R81, R82). -/
theorem sampleRegs_cases (rom : Vector F32 5) (p : Ports) (sel : BitVec 4) (r : Regs) :
    (getFlag r.status .initDone = false ∧
      sampleRegs rom p sel r = raise .seq opSample sel (r.setFlag .tick false)) ∨
    (getFlag r.status .initDone = true ∧ incAdmitted (increment p r) = false ∧
      sampleRegs rom p sel r = raise .rate opSample sel (r.setFlag .tick false)) ∨
    (getFlag r.status .initDone = true ∧ incAdmitted (increment p r) = true ∧ sampleTicks (increment p r) r = false ∧
      sampleRegs rom p sel r = advanceRegs (increment p r) r) ∨
    (getFlag r.status .initDone = true ∧ incAdmitted (increment p r) = true ∧ sampleTicks (increment p r) r = true ∧
      5 ≤ p.rndIdx.toNat ∧
      sampleRegs rom p sel r =
        raise .draw opSample sel { advanceRegs (increment p r) r with tickCount := r.tickCount + 1#32 }) ∨
    (getFlag r.status .initDone = true ∧ incAdmitted (increment p r) = true ∧ sampleTicks (increment p r) r = true ∧
      ∃ h : p.rndIdx.toNat < 5,
      sampleRegs rom p sel r =
        tickVoices rom p.freqOffset sel ⟨p.rndIdx.toNat, h⟩
          { advanceRegs (increment p r) r with tickCount := r.tickCount + 1#32 }) := by
  unfold sampleRegs
  by_cases h1 : getFlag r.status .initDone = false
  · exact .inl ⟨h1, if_pos h1⟩
  · rw [if_neg h1]
    rw [Bool.not_eq_false] at h1
    refine .inr ?_
    by_cases h2 : incAdmitted (increment p r) = false
    · exact .inl ⟨h1, h2, if_pos h2⟩
    · rw [if_neg h2]
      rw [Bool.not_eq_false] at h2
      refine .inr ?_
      by_cases h3 : sampleTicks (increment p r) r = false
      · exact .inl ⟨h1, h2, h3, if_pos h3⟩
      · rw [if_neg h3]
        rw [Bool.not_eq_false] at h3
        refine .inr ?_
        by_cases h4 : p.rndIdx.toNat < 5
        · exact .inr ⟨h1, h2, h3, h4, by simp only [tickRegs, dif_pos h4]; rfl⟩
        · exact .inl ⟨h1, h2, h3, by omega, by simp only [tickRegs, dif_neg h4]; rfl⟩

/-- No SAMPLE changes SAMPLE_RATE or RD_DATA (20_memory.md R50). -/
theorem sampleRegs_frame (rom : Vector F32 5) (p : Ports) (sel : BitVec 4) (r : Regs) :
    (sampleRegs rom p sel r).sampleRate = r.sampleRate ∧ (sampleRegs rom p sel r).rdData = r.rdData := by
  rcases sampleRegs_cases rom p sel r with ⟨-, h⟩ | ⟨-, -, h⟩ | ⟨-, -, -, h⟩ | ⟨-, -, -, -, h⟩ | ⟨-, -, -, hd, h⟩
  · rw [h]; exact ⟨rfl, rfl⟩
  · rw [h]; exact ⟨rfl, rfl⟩
  · rw [h]; exact ⟨rfl, rfl⟩
  · rw [h]; exact ⟨rfl, rfl⟩
  · rw [h]
    obtain ⟨h1, -, -, -, h5⟩ := tickVoices_frame rom p.freqOffset sel ⟨p.rndIdx.toNat, hd⟩
      { advanceRegs (increment p r) r with tickCount := r.tickCount + 1#32 }
    exact ⟨h1, h5⟩

end Sys2Proof.Machine
end

