-- ==== Sys2Proof/Laws/Step.lean ====
section
/-! SUPPORT. What a command and a step can do, said once: the inversion lemmas of `exec` and `step`. -/

namespace Sys2Proof.Machine

/-- A command changes the registers only; the ROM and the environment stay. -/
theorem exec_next_withRegs {i : Instr} {s t : State} (h : exec i s = .next t) : t = s.withRegs t.regs := by
  cases i <;>
    simp only [exec, execNop, execReset, execInit, execSample, execRead, Host.Outcome.next.injEq] at h <;>
    subst h <;> rfl

/-- What a step that answers a next state did: nothing (no coming edge), or one edge that reset the block, was idle, ran
the decoded command, or raised ERR_OPCODE. -/
theorem step_next_cases {s t : State} (h : step s = .next t) :
    (s.edges = [] ∧ t = s) ∨
    ∃ p rest, s.edges = p :: rest ∧
      ((p.rstN = false ∧ t = (s.acceptEdge p rest).resetBlock) ∨
       (p.rstN = true ∧ p.cmdValid = false ∧ t = s.acceptEdge p rest) ∨
       (p.rstN = true ∧ p.cmdValid = true ∧ ∃ i, decode p.cmd = .instr i ∧ exec i (s.acceptEdge p rest) = .next t) ∨
       (p.rstN = true ∧ p.cmdValid = true ∧ ∃ op sel, decode p.cmd = .reserved op sel ∧
          t = (s.acceptEdge p rest).withRegs (raise .opcode op sel s.regs))) := by
  simp only [step, nextEdge] at h
  split at h
  · rename_i he
    exact .inl ⟨he, (Host.Outcome.next.inj h).symm⟩
  · rename_i p rest he
    refine .inr ⟨p, rest, he, ?_⟩
    unfold clockEdge at h
    by_cases h1 : p.rstN = false
    · rw [if_pos (show (s.acceptEdge p rest).ports.rstN = false from h1)] at h
      exact .inl ⟨h1, (Host.Outcome.next.inj h).symm⟩
    · rw [if_neg (show ¬(s.acceptEdge p rest).ports.rstN = false from h1)] at h
      rw [Bool.not_eq_false] at h1
      by_cases h2 : p.cmdValid = false
      · rw [if_pos (show (s.acceptEdge p rest).ports.cmdValid = false from h2)] at h
        exact .inr (.inl ⟨h1, h2, (Host.Outcome.next.inj h).symm⟩)
      · rw [if_neg (show ¬(s.acceptEdge p rest).ports.cmdValid = false from h2)] at h
        rw [Bool.not_eq_false] at h2
        simp only [acceptCommand, State.acceptEdge_ports] at h
        split at h
        · rename_i i hi
          exact .inr (.inr (.inl ⟨h1, h2, i, hi, h⟩))
        · rename_i op sel hd
          exact .inr (.inr (.inr ⟨h1, h2, op, sel, hd, (Host.Outcome.next.inj h).symm⟩))

end Sys2Proof.Machine
end

