-- ==== Sys2Proof/Tests/Slice0.lean ====
section
/-! SUPPORT. Our own tests: the checks on syntax, decoding of words written out from the spec, vectors of spec/95_test_vectors.md,
and a concrete witness for the hypotheses of each statement. The expected results of the vectors are the spec's. -/

namespace Sys2Proof.Tests

open Sys2Proof Sys2Proof.Machine

/-! ### Checks on syntax, each with a term it refuses -/

theorem test_hex_rate_over_32_bits_refused : (Asm.init (.hex (2 ^ 32))).wellFormed = false := by decide
theorem test_setup_hex_rate_over_32_bits_refused : (Asm.setup (.hex (2 ^ 32))).wellFormed = false := by decide
theorem test_register_number_16_refused : (Asm.read (.number 16)).wellFormed = false := by decide
theorem test_empty_block_refused : (Asm.block 0).wellFormed = false := by decide
theorem test_ill_formed_has_no_words : assemble (.read (.number 16)) = none := by decide
theorem test_nonzero_ignored_field_not_canonical : (Instr.sample 5 0).canonical = false := by decide
theorem test_nonzero_read_data_not_canonical : (Instr.read 6 0xFFFFFFFF).canonical = false := by decide

/-! ### Decoding of words written out from 30_encoding.md R61, R63, R70 and 95_test_vectors.md 2.3 to 2.6 -/

theorem test_decode_nop : decode 0x0FFFFFFFFF = .instr (.nop 0xF 0xFFFFFFFF) := by decide
theorem test_decode_reset : decode 0x1000000000 = .instr (.reset 0 0) := by decide
theorem test_decode_init : decode 0x2F473B8000 = .instr (.init 0xF 0x473B8000) := by decide
theorem test_decode_sample : decode 0x3000000000 = .instr (.sample 0 0) := by decide
theorem test_decode_read : decode 0x46FFFFFFFF = .instr (.read 6 0xFFFFFFFF) := by decide
theorem test_decode_first_reserved : decode 0x5000000000 = .reserved 5 0 := by decide
theorem test_decode_last_reserved : decode 0xFFFFFFFFFF = .reserved 0xF 0xF := by decide
theorem test_encode_init : encode (.init 0 0x472C4400) = 0x20472C4400 := by decide
theorem test_table_word_read : decodeTableWord 40 0x4F00000000 = some (.read 15 0) := by decide

/-! ### Assembler (30_encoding.md R67, R70) -/

/-- `init 48000.0;` -/
theorem test_assemble_init :
    assembleLine ['i', 'n', 'i', 't', ' ', '4', '8', '0', '0', '0', '.', '0', ';'] = some [0x20473B8000] := by decide
/-- `read 15`: a register number is read in decimal (Log 12). -/
theorem test_assemble_read_number : assembleLine ['r', 'e', 'a', 'd', ' ', '1', '5'] = some [0x4F00000000] := by decide
/-- `READ TICK_COUNT` -/
theorem test_assemble_read :
    assembleLine ['R', 'E', 'A', 'D', ' ', 'T', 'I', 'C', 'K', '_', 'C', 'O', 'U', 'N', 'T'] = some [0x4500000000] := by
  decide

/-! ### Binary32: the numbers of 95_test_vectors.md -/

/-- V-S2: 16000 / 48000. -/
theorem test_div_third : div32 0x467A0000 0x473B8000 = 0x3EAAAAAB := by decide
/-- V-S2: the third sum rounds to 1.0. -/
theorem test_add_rounds_to_one : add32 0x3F2AAAAB 0x3EAAAAAB = 0x3F800000 := by decide
/-- V-S5: the smallest negative subnormal over 48000 rounds to -0.0. -/
theorem test_div_to_minus_zero : div32 0x80000001 0x473B8000 = 0x80000000 := by decide
/-- V-S14: a tie rounds to even. -/
theorem test_add_tie_to_even : add32 0x3F7FFFFF 0x33000000 = 0x3F800000 := by decide
/-- V-F5 on table entry 1. -/
theorem test_voices_of_247_5_and_0_1 :
    voiceFreqs 0x43778000 0x3DCCCCCD = #v[0x4377999A, 0x43B2CCCD, 0x4309999A, 0x43E9CCCD] := by decide
/-- V-F7: the table entry is absorbed, no overflow. -/
theorem test_add_absorbs : add32 0x43898000 0x7F7FFFFF = 0x7F7FFFFF := by decide

/-! ### Small states -/

/-- The example Pitch Table EX of 40_sample_step.md. -/
def exRom : Vector F32 5 := #v[0x435C0000, 0x43778000, 0x43898000, 0x43A50000, 0x43B7C000]

/-- An edge that presents the word `w` with the parameter words and the draw given. -/
def edge (w : Cmd) (rate offset : F32) (draw : BitVec 3) : Ports := ⟨true, true, w, rate, offset, draw⟩

/-- The registers after `INIT 48000.0` (V-I1), at the phase `ph`. -/
def started (ph : F32) : Regs := { Regs.reset with status := 1#8, sampleRate := 0x473B8000#32, phase := ph }

/-- A state with the EX table, standing at the edge `p`, with the edges `es` to come. -/
def placed (r : Regs) (p : Ports) (es : List Ports) : State := { regs := r, rom := exRom, ports := p, edges := es }

/-- The registers of a next state. -/
def regsAfter : Host.Outcome State Fault Refusal → Option Regs
  | .next t => some t.regs
  | .fault _ => none
  | .refused _ => none

/-- The word `w` at the next edge, from the registers `r`. -/
def stepOn (r : Regs) (w : Cmd) (rate offset : F32) (draw : BitVec 3) : Option Regs :=
  regsAfter (step (placed r (edge 0 0 0 0) [edge w rate offset draw]))

/-! ### One step of each command -/

/-- V-C2. -/
theorem test_nop_keeps_tick :
    (stepOn { started 0 with status := 7 } 0x0FFFFFFFFF 0 0 0).map (·.status) = some 7 := by decide
/-- V-C3. -/
theorem test_reset_clears :
    stepOn { started 0 with status := 0x59, errInfo := ⟨4, 3, 0⟩ } 0x1000000000 0 0 0 = some Regs.reset := by decide
/-- V-I1. -/
theorem test_init_48000 : stepOn Regs.reset 0x20473B8000 0 0 0 = some (started 0) := by decide
/-- V-I3. -/
theorem test_init_minus_zero :
    (stepOn Regs.reset 0x2080000000 0 0 0).map (fun r => (r.status, errInfoWord r.errInfo)) = some (0x40, 0x24) := by
  decide
/-- V-F1. -/
theorem test_sample_first_note :
    (stepOn (started 0x3F400000) 0x3000000000 0x463B8000 0x3F000000 3).map
      (fun r => (r.status, r.phase, r.tickCount, r.pitchIndex, r.voiceFreq)) =
      some (7, 0, 1, 3, #v[0x43A54000, 0x43DC4000, 0x435C8000, 0x4409A000]) := by decide
/-- V-F10. -/
theorem test_sample_bad_draw :
    (stepOn (started 0x3F400000) 0x3000000000 0x463B8000 0 5).map
      (fun r => (r.status, errInfoWord r.errInfo, r.tickCount, r.voiceFreq)) =
      some (0x25, 0x33, 1, #v[0, 0, 0, 0]) := by decide
/-- V-R7. -/
theorem test_read_err_info :
    (stepOn { Regs.reset with status := 8, errInfo := ⟨1, 0xA, 5⟩ } 0x4F00000000 0 0 0).map
      (fun r => (r.rdData, r.status)) = some (0x5A1, 8) := by decide
/-- V-R3. -/
theorem test_read_pitch_table3 :
    (stepOn Regs.reset 0x4D00000000 0 0 0).map (·.rdData) = some 0x43A50000 := by decide
/-- V-C5. -/
theorem test_reserved_word :
    (stepOn Regs.reset 0xA500000000 0 0 0).map (fun r => (r.status, errInfoWord r.errInfo)) = some (8, 0x5A1) := by
  decide
/-- V-C8: `rst_n = 0` drops the command. -/
theorem test_reset_edge_wins :
    regsAfter (step (placed (started 0) (edge 0 0 0 0) [{ edge 0x7000000000 0 0 0 with rstN := false }])) =
      some Regs.reset := by decide

/-! ### Witnesses: the hypotheses of each statement are met together -/

/-- An edge that presents SAMPLE with draw 3, at a quarter of the sample rate: the increment is 0.25. -/
def sampleEdge : Ports := edge 0x3000000000 0x463B8000 0x3F000000 3

theorem witness_DecodeEncodeRoundTrip : decode 0x4500000000 = .instr (.read 5 0) := by decide

theorem witness_DecodeSelectsByOpcodeAlone :
    0x0FFFFFFFFF#40 &&& 0xF000000000#40 = 0x0000000000#40 ∧ 0x1FFFFFFFFF#40 &&& 0xF000000000#40 = 0x1000000000#40 ∧
    0x2FFFFFFFFF#40 &&& 0xF000000000#40 = 0x2000000000#40 ∧ 0x3FFFFFFFFF#40 &&& 0xF000000000#40 = 0x3000000000#40 ∧
    0x4FFFFFFFFF#40 &&& 0xF000000000#40 = 0x4000000000#40 ∧ 0x5000000000 ≤ (0x5000000000#40).toNat := by decide

theorem witness_AssembledWordsDecodeBack :
    assemble (.setup (.hex 0x473B8000)) = some [0x1000000000, 0x20473B8000] ∧ 0xFFFFFFFF < 2 ^ 32 ∧ 15 < 16 ∧
    (RegName.status, 0) ∈ [(RegName.status, 0), (RegName.errInfo, 15)] ∧
    (RegName.errInfo, 15) ∈ [(RegName.status, 0), (RegName.errInfo, 15)] := by decide

/-- 48000.0 is below the overflow threshold, `-1e39` beyond it, and 16777217 is a tie between two finite values. -/
theorem witness_DecimalRateRoundsToNearestEven :
    (480000 : Int) * 2 ^ 149 < (2 ^ 25 - 1) * 2 ^ 252 * 10 ^ 1 ∧
    (2 ^ 25 - 1) * 2 ^ 252 * 10 ^ 0 ≤ |-((10 : Int) ^ 39 * 2 ^ 149)| ∧
    (finite32 0x4B800001#32 = true ∧
      units32 0x4B800001#32 - 16777217 * 2 ^ 149 = -(units32 (rateBits (.decimal false 16777217 0)) - 16777217 * 2 ^ 149) ∧
      units32 0x4B800001#32 ≠ units32 (rateBits (.decimal false 16777217 0))) := by decide

theorem witness_PseudoInstructionsExpand : 1 ≤ 1 ∧ 0xFFFFFFFF < 2 ^ 32 := by decide

theorem witness_EdgeRunsTheDecodedCommand :
    (placed (started 0) sampleEdge [sampleEdge]).edges = [sampleEdge] ∧ sampleEdge.rstN = true ∧
    sampleEdge.cmdValid = true ∧ decode sampleEdge.cmd = .instr (.sample 0 0) := by decide

theorem witness_EdgeRunsTheDecodedCommand_idle :
    (placed (started 0) sampleEdge [{ sampleEdge with cmdValid := false }]).edges = [{ sampleEdge with cmdValid := false }] ∧
    ({ sampleEdge with cmdValid := false } : Ports).rstN = true ∧
    ({ sampleEdge with cmdValid := false } : Ports).cmdValid = false := by decide

theorem witness_PresentedCommandRunsNext :
    (placed (started 0) sampleEdge []).edges = [] ∧ (placed (started 0) sampleEdge [sampleEdge]).edges = sampleEdge :: [] := by
  decide

theorem witness_ReservedOpcodeRaisesErrOpcode :
    (placed (started 0) sampleEdge [edge 0x5000000000 0 0 0]).edges = [edge 0x5000000000 0 0 0] ∧
    (edge 0x5000000000 0 0 0).rstN = true ∧ (edge 0x5000000000 0 0 0).cmdValid = true ∧
    5 ≤ ((edge 0x5000000000 0 0 0).cmd.extractLsb' 36 4).toNat := by decide

theorem witness_ResetEdgeGivesResetState :
    (placed (started 0) sampleEdge [{ sampleEdge with rstN := false }]).edges = [{ sampleEdge with rstN := false }] ∧
    ({ sampleEdge with rstN := false } : Ports).rstN = false := by decide

theorem witness_StepKeepsPitchTable : ∃ t, step (placed (started 0) sampleEdge [sampleEdge]) = .next t := ⟨_, rfl⟩

theorem witness_NopChangesNothing :
    0x0FFFFFFFFF#40 &&& 0xF000000000#40 = 0x0000000000#40 ∧
    (placed (started 0) sampleEdge [{ sampleEdge with cmdValid := false }]).edges = [{ sampleEdge with cmdValid := false }] ∧
    ({ sampleEdge with cmdValid := false } : Ports).rstN = true ∧
    ({ sampleEdge with cmdValid := false } : Ports).cmdValid = false := by decide

theorem witness_ResetCommandRestoresResetState :
    0x1FFFFFFFFF#40 &&& 0xF000000000#40 = 0x1000000000#40 ∧
    (∃ t, (Instr.sample 0 0).opcode ≠ 1#4 ∧
      exec (.sample 0 0) (placed { started 0 with status := 0x41, errInfo := ⟨4, 3, 0⟩ } sampleEdge []) = .next t ∧
      getFlag ({ started 0 with status := 0x41, errInfo := ⟨4, 3, 0⟩ } : Regs).status ErrKind.seq.flag = true ∧
      ({ started 0 with status := 0x41, errInfo := ⟨4, 3, 0⟩ } : Regs).errInfo.code ≠ 0#3) ∧
    ∃ t u, exec (.reset 0 0) (placed (started 0) sampleEdge []) = .next t ∧ exec (.sample 0 0) t = .next u :=
  ⟨by decide, ⟨_, by decide, rfl, by decide, by decide⟩, ⟨_, _, rfl, rfl⟩⟩

theorem witness_InitLoadsRateOrRaisesErrSeq :
    0x2FFFFFFFFF#40 &&& 0xF000000000#40 = 0x2000000000#40 ∧
    (finite32 0x00000001#32 = true ∧ lt32 0x00000000#32 0x00000001#32 = true) ∧
    ¬(finite32 0x80000000#32 = true ∧ lt32 0x00000000#32 0x80000000#32 = true) := by decide

theorem witness_ReadCopiesSelectedRegister : 0x4FFFFFFFFF#40 &&& 0xF000000000#40 = 0x4000000000#40 := by decide

theorem witness_ReadHasNoSideEffect : ∃ t, exec (.read 15 0) (placed (started 0) sampleEdge []) = .next t := ⟨_, rfl⟩

theorem witness_ReadReturnsTheEarlierEdgesResults :
    (edge 0x4200000000 0 0 0).accepted = some (.instr (.read 2 0)) ∧
    ∃ t u, step (placed (started 0) sampleEdge [sampleEdge, edge 0x4200000000 0 0 0]) = .next t ∧ step t = .next u :=
  ⟨by decide, ⟨_, _, rfl, rfl⟩⟩

theorem witness_SampleBeforeInitRaisesErrSeq :
    getFlag (placed Regs.reset sampleEdge []).regs.status .initDone = false := by decide

/-- The clauses of R78: a rate equal to the sample rate is outside; a rate of `-0.0` is inside; a negative subnormal rate gives
a quotient that rounds to a zero. -/
theorem witness_SampleRateOutsideDomainRaisesErrRate :
    (getFlag (started 0).status .initDone = true ∧
      ¬(ge32 (div32 0x473B8000#32 (started 0).sampleRate) 0x00000000#32 = true ∧
        lt32 (div32 0x473B8000#32 (started 0).sampleRate) 0x3F800000#32 = true)) ∧
    (getFlag (started 0).status .initDone = true ∧
      ge32 (div32 0x80000000#32 (started 0).sampleRate) 0x00000000#32 = true ∧
      lt32 (div32 0x80000000#32 (started 0).sampleRate) 0x3F800000#32 = true) ∧
    (finite32 0x80000001#32 = true ∧ finite32 0x473B8000#32 = true ∧ lt32 0x80000001#32 0x00000000#32 = true ∧
      lt32 0x00000000#32 0x473B8000#32 = true ∧ units32 (div32 0x80000001#32 0x473B8000#32) = 0) := by decide

theorem witness_SampleRateOutsideDomainRaisesErrRate_next :
    ∃ t, exec (.sample 0 0) (placed (started 0) { sampleEdge with clockRate := 0x80000000 } []) = .next t := ⟨_, rfl⟩

theorem witness_SampleWithoutTickAdvancesPhase :
    (0x3E800000#32 : F32) = div32 sampleEdge.clockRate (started 0x3F000000).sampleRate ∧
    getFlag (started 0x3F000000).status .initDone = true ∧ ge32 0x3E800000#32 0x00000000#32 = true ∧
    lt32 0x3E800000#32 0x3F800000#32 = true ∧
    ge32 (add32 (started 0x3F000000).phase 0x3E800000#32) 0x3F800000#32 = false := by decide

theorem witness_SampleTickWithBadDrawRaisesErrDraw :
    (0x3E800000#32 : F32) = div32 sampleEdge.clockRate (started 0x3F400000).sampleRate ∧
    getFlag (started 0x3F400000).status .initDone = true ∧ ge32 0x3E800000#32 0x00000000#32 = true ∧
    lt32 0x3E800000#32 0x3F800000#32 = true ∧
    ge32 (add32 (started 0x3F400000).phase 0x3E800000#32) 0x3F800000#32 = true ∧
    4 < ({ sampleEdge with rndIdx := 5 } : Ports).rndIdx.toNat := by decide

theorem witness_SampleTickWithBadDrawRaisesErrDraw_valid :
    ∃ t, exec (.sample 0 0) (placed (started 0x3F400000) { sampleEdge with rndIdx := 4 } []) = .next t ∧
      getFlag t.regs.status .tick = true ∧ ({ sampleEdge with rndIdx := 4 } : Ports).rndIdx.toNat ≤ 4 :=
  ⟨_, rfl, by decide, by decide⟩

/-- The boundary draws 0 and 4 name entries of the ROM, and their frequencies are finite with the offset 0.5 and not with a NaN. -/
theorem witness_SampleTickWritesVoices_draws :
    exRom[({ sampleEdge with rndIdx := 0 } : Ports).rndIdx.toNat]? = some 0x435C0000#32 ∧
    exRom[({ sampleEdge with rndIdx := 4 } : Ports).rndIdx.toNat]? = some 0x43B7C000#32 ∧
    (∀ k : Fin 4, finite32 (voiceFreqs 0x435C0000 0x3F000000)[k] = true) ∧
    (∀ k : Fin 4, finite32 (voiceFreqs 0x43B7C000 0x3F000000)[k] = true) ∧
    (∃ k : Fin 4, finite32 (voiceFreqs 0x435C0000 0x7FC00000)[k] = false) ∧
    (∃ k : Fin 4, finite32 (voiceFreqs 0x43B7C000 0x7FC00000)[k] = false) := by decide

/-- A finite offset and a NaN offset, at a tick that draws entry 3. -/
theorem witness_SampleTickWritesVoices :
    (0x3E800000#32 : F32) = div32 sampleEdge.clockRate (started 0x3F400000).sampleRate ∧
    getFlag (started 0x3F400000).status .initDone = true ∧ ge32 0x3E800000#32 0x00000000#32 = true ∧
    lt32 0x3E800000#32 0x3F800000#32 = true ∧
    ge32 (add32 (started 0x3F400000).phase 0x3E800000#32) 0x3F800000#32 = true ∧
    exRom[sampleEdge.rndIdx.toNat]? = some 0x43A50000#32 ∧
    (∀ k : Fin 4, finite32 (voiceFreqs 0x43A50000 0x3F000000)[k] = true) ∧
    (∃ k : Fin 4, finite32 (voiceFreqs 0x43A50000 0x7FC00000)[k] = false) := by decide

/-- A SAMPLE that does not tick, and a tick with a draw of 5. -/
theorem witness_OffsetAndDrawReadOnlyOnTick :
    (∃ t, exec (.sample 0 0) (placed (started 0) sampleEdge []) = .next t ∧ getFlag t.regs.status .tick = false) ∧
    (∃ t, exec (.sample 0 0) (placed (started 0x3F400000) { sampleEdge with rndIdx := 5 } []) = .next t ∧
      4 < ({ sampleEdge with rndIdx := 5 } : Ports).rndIdx.toNat) :=
  ⟨⟨_, rfl, by decide⟩, ⟨_, rfl, by decide⟩⟩

theorem started_inv : RegsInv (started 0x3F400000) where
  rate_positive := by decide
  phase_in_unit := by decide
  inc_admitted := by decide
  pitch_in_table := by decide
  code_known := by decide
  recorded_iff_error := by decide
  recorded_is_sticky := by intro e; cases e <;> decide
  clean_record := by decide
  first_op := by unfold opMatchesCode; decide
  before_init := by decide
  before_voice := by decide
  voices_finite := by decide

theorem witness_ZeroRateHoldsThePhase :
    RegsInv (placed (started 0x3F400000) { sampleEdge with clockRate := 0x80000000 } []).regs ∧
    getFlag (started 0x3F400000).status .initDone = true ∧
    ({ sampleEdge with clockRate := 0x80000000 } : Ports).clockRate = 0x80000000#32 :=
  ⟨started_inv, by decide, by decide⟩

theorem witness_RateAtOrAboveSampleRateIsRejected :
    finite32 0x473B8000#32 = true ∧ lt32 0x00000000#32 0x473B8000#32 = true ∧ isNaN32 0x7F800001#32 = true ∧
    isInf32 0xFF800000#32 = true ∧ ge32 0x473B8000#32 0x473B8000#32 = true := by decide

theorem witness_PhaseStaysInUnitInterval :
    (∃ t, exec (.sample 0 0) (placed (started 0x3F7FFFFF) sampleEdge []) = .next t) ∧
    ge32 (started 0x3F7FFFFF).phase 0x00000000#32 = true ∧ lt32 (started 0x3F7FFFFF).phase 0x3F800000#32 = true ∧
    (started 0x3F7FFFFF).phase ≠ 0x80000000#32 ∧ ge32 0x3F7FFFFF#32 0x00000000#32 = true ∧
    lt32 0x3F7FFFFF#32 0x3F800000#32 = true ∧ ge32 (add32 0x3F7FFFFF#32 0x3F7FFFFF#32) 0x3F800000#32 = true :=
  ⟨⟨_, rfl⟩, by decide⟩

/-- `k = 2` at 12000.0, and `k = 24` at 48000 / 2^24. -/
theorem witness_PowerOfTwoIncrementTicksEveryPeriod :
    (1 ≤ 2 ∧ 2 ≤ 24 ∧ (placed (started 0) sampleEdge [sampleEdge]).edges = List.replicate 1 sampleEdge ∧
      sampleEdge.rstN = true ∧ sampleEdge.cmdValid = true ∧ decode sampleEdge.cmd = .instr (.sample 0 0) ∧
      getFlag (started 0).status .initDone = true ∧ (started 0).phase = 0x00000000#32 ∧
      div32 sampleEdge.clockRate (started 0).sampleRate = BitVec.ofNat 32 ((127 - 2) * 2 ^ 23)) ∧
    div32 0x3B3B8000 (started 0).sampleRate = BitVec.ofNat 32 ((127 - 24) * 2 ^ 23) := by decide

theorem witness_IncrementTwoToMinus25NeverTicks :
    (placed (started 0) sampleEdge [edge 0x3000000000 0x3ABB8000 0 0]).edges =
      List.replicate 1 (edge 0x3000000000 0x3ABB8000 0 0) ∧
    decode (edge 0x3000000000 0x3ABB8000 0 0).cmd = .instr (.sample 0 0) ∧
    getFlag (started 0).status .initDone = true ∧ (started 0).phase = 0x00000000#32 ∧
    div32 (edge 0x3000000000 0x3ABB8000 0 0).clockRate (started 0).sampleRate = 0x33000000#32 := by decide

/-- A SAMPLE of written words, a SAMPLE of the startup defaults, and an edge that samples nothing, whose words are bound by
nothing. -/
def storeEdges : List Ports :=
  [ sampleEdge, { sampleEdge with clockRate := Config.rateDefault, freqOffset := Config.offsetDefault },
    { sampleEdge with cmdValid := false, clockRate := 0x12345678 } ]

theorem witness_SampledWordsComeFromTheParameterStore :
    fieldIntegrity [0x463B8000] [0x3F000000] (placed (started 0x3F400000) sampleEdge storeEdges).edges ∧
    sampleEdge.accepted = some (.instr (.sample 0 0)) ∧
    ∃ t, step (placed (started 0x3F400000) sampleEdge storeEdges) = .next t :=
  ⟨by simp [fieldIntegrity, placed, storeEdges, sampleEdge, edge, rateWords, offsetWords, Ports.samples],
    by decide, ⟨_, rfl⟩⟩

theorem witness_RaiseSetsStickyBitAndRecordsFirst :
    (ErrKind.freq, 5) ∈ [(ErrKind.opcode, 1), (ErrKind.rate, 2), (ErrKind.draw, 3), (ErrKind.seq, 4), (ErrKind.freq, 5)] := by
  decide

theorem witness_AtMostOneErrorPerCommand :
    ∃ t, exec (.sample 0 0) (placed Regs.reset sampleEdge []) = .next t ∧
      getFlag Regs.reset.status ErrKind.seq.flag = false ∧ getFlag t.regs.status ErrKind.seq.flag = true :=
  ⟨_, rfl, by decide, by decide⟩

/-- A state with an error recorded, at an edge that does not reset; it serves the statements about sticky errors and `err`. -/
theorem witness_ErrorsAreStickyUntilReset :
    (placed { started 0 with status := 0x41, errInfo := ⟨4, 3, 0⟩ } sampleEdge [sampleEdge]).edges = [sampleEdge] ∧
    sampleEdge.resets = false ∧
    (∃ t, step (placed { started 0 with status := 0x41, errInfo := ⟨4, 3, 0⟩ } sampleEdge [sampleEdge]) = .next t) ∧
    getFlag ({ started 0 with status := 0x41 } : Regs).status ErrKind.seq.flag = true ∧
    ({ started 0 with errInfo := ⟨4, 3, 0⟩ } : Regs).errInfo.code ≠ 0#3 :=
  ⟨rfl, by decide, ⟨_, rfl⟩, by decide, by decide⟩

theorem witness_ErrOutputIsOrOfErrorBits :
    sampleEdge.resets = false ∧ ({ started 0 with status := 0x41 } : Regs).outputs.err = true ∧
    ∃ t, step (placed { started 0 with status := 0x41 } sampleEdge [sampleEdge]) = .next t :=
  ⟨by decide, by decide, ⟨_, rfl⟩⟩

theorem witness_EnvTrigIsTheTickLevel :
    ∃ t, step (placed (started 0x3F400000) sampleEdge [sampleEdge]) = .next t ∧ t.regs.outputs.envTrig = true :=
  ⟨_, rfl, by decide⟩

theorem witness_TickCountCountsTicks :
    ∃ t, exec (.sample 0 0) (placed { started 0x3F400000 with tickCount := 0xFFFFFFFF } sampleEdge []) = .next t ∧
      t.regs.tickCount = 0 :=
  ⟨_, rfl, by decide⟩

theorem witness_EachRegisterHasItsWriters :
    (∃ t, exec (.read 1 0) (placed (started 0) sampleEdge []) = .next t) ∧
    (Instr.read 1 0).opcode ≠ 1#4 ∧ (Instr.read 1 0).opcode ≠ 2#4 ∧ (Instr.read 1 0).opcode ≠ 3#4 ∧
    (Instr.nop 1 0).opcode ≠ 1#4 ∧ (Instr.nop 1 0).opcode ≠ 4#4 :=
  ⟨⟨_, rfl⟩, by decide⟩

theorem witness_CommandsOtherThanSampleAreIdempotent :
    ((Instr.init 0 0x80000000).opcode ≠ 3#4 ∧ ∃ t, exec (.init 0 0x80000000) (placed (started 0) sampleEdge []) = .next t) ∧
    ∃ t, execReserved 7 0 (placed (started 0) sampleEdge []) = .next t :=
  ⟨⟨by decide, ⟨_, rfl⟩⟩, ⟨_, rfl⟩⟩

/-- A SAMPLE before INIT records its `sel`, 5 or 6. -/
theorem witness_IgnoredFieldsHaveNoEffect :
    (∃ t t', exec (.sample 5 0) (placed Regs.reset sampleEdge []) = .next t ∧
      exec (.sample 6 1) (placed Regs.reset sampleEdge []) = .next t' ∧ t'.regs.errInfo.sel ≠ t.regs.errInfo.sel) ∧
    (∃ t t', exec (.init 5 0) (placed Regs.reset sampleEdge []) = .next t ∧
      exec (.init 6 0) (placed Regs.reset sampleEdge []) = .next t' ∧ t'.regs.errInfo.sel ≠ t.regs.errInfo.sel) :=
  ⟨⟨_, _, rfl, rfl, by decide⟩, ⟨_, _, rfl, rfl, by decide⟩⟩

theorem witness_OnlySampleReadsTheParameterPorts :
    (Instr.init 0 0x473B8000).opcode ≠ 3#4 ∧
      ∃ t, exec (.init 0 0x473B8000) (placed (started 0) sampleEdge []) = .next t :=
  ⟨by decide, ⟨_, rfl⟩⟩

theorem witness_StepKeepsInvariant :
    RegsInv (placed (started 0x3F400000) sampleEdge [sampleEdge]).regs ∧
    ∃ t, step (placed (started 0x3F400000) sampleEdge [sampleEdge]) = .next t :=
  ⟨started_inv, ⟨_, rfl⟩⟩

/-- A reset edge, then a SAMPLE, from registers no run reaches. -/
theorem witness_InvariantHoldsOnceResetIsApplied :
    ({ sampleEdge with rstN := false } : Ports).resets = true ∧
    ∃ t, core.run (1 + 1) (placed { started 0x7FC00000 with status := 0xFF } sampleEdge
      [{ sampleEdge with rstN := false }, sampleEdge]) = .next t :=
  ⟨by decide, ⟨_, rfl⟩⟩

/-- A zero sum, a nonzero one with a tie (1 + 2^-24, between 1 and 1 + 2^-23), and an overflow. -/
theorem witness_AddRoundsToNearestEven :
    (finite32 0x3F800000#32 = true ∧ finite32 0xBF800000#32 = true ∧ units32 0x3F800000#32 + units32 0xBF800000#32 = 0) ∧
    (finite32 0x33800000#32 = true ∧ finite32 0x3F800001#32 = true ∧
      units32 0x3F800001#32 - (units32 0x3F800000#32 + units32 0x33800000#32) =
        -(units32 (add32 0x3F800000#32 0x33800000#32) - (units32 0x3F800000#32 + units32 0x33800000#32)) ∧
      units32 0x3F800001#32 ≠ units32 (add32 0x3F800000#32 0x33800000#32) ∧
      0 < units32 0x3F800000#32 + units32 0x33800000#32 ∧
      units32 0x3F800000#32 + units32 0x33800000#32 < (2 ^ 25 - 1) * 2 ^ 252) ∧
    (finite32 0x7F7FFFFF#32 = true ∧ (2 ^ 25 - 1) * 2 ^ 252 ≤ units32 0x7F7FFFFF#32 + units32 0x7F7FFFFF#32) := by decide

/-- Three units over 2.0: a tie between one unit and two; and an overflow. -/
theorem witness_DivRoundsToNearestEven :
    (finite32 0x00000003#32 = true ∧ finite32 0x40000000#32 = true ∧ units32 0x40000000#32 ≠ 0 ∧
      units32 0x00000003#32 * 2 ^ 149 < ((2 ^ 25 - 1) * 2 ^ 252) * units32 0x40000000#32 ∧ finite32 0x00000001#32 = true ∧
      units32 0x00000001#32 * units32 0x40000000#32 - units32 0x00000003#32 * 2 ^ 149 =
        -(units32 (div32 0x00000003#32 0x40000000#32) * units32 0x40000000#32 - units32 0x00000003#32 * 2 ^ 149) ∧
      units32 0x00000001#32 ≠ units32 (div32 0x00000003#32 0x40000000#32)) ∧
    (finite32 0x7F7FFFFF#32 = true ∧ finite32 0x00800000#32 = true ∧
      ((2 ^ 25 - 1) * 2 ^ 252) * units32 0x00800000#32 ≤ units32 0x7F7FFFFF#32 * 2 ^ 149) := by decide

theorem witness_SpecialValueArithmetic :
    isNaN32 0x7F800001#32 = true ∧ isNaN32 (add32 0x7F800000#32 0xFF800000#32) = true ∧
    isNaN32 (sub32 0x7F800000#32 0x7F800000#32) = true ∧ isNaN32 (div32 0x00000000#32 0x80000000#32) = true ∧
    finite32 0x7F7FFFFF#32 = true ∧ units32 0x7F7FFFFF#32 ≠ 0 ∧ units32 0x80000000#32 = 0 := by decide

end Sys2Proof.Tests
end

section
/-! PROOF. TICK_COUNT counts the ticks (spec/10_state.md R29): what each command answers, and what a SAMPLE does to TICK and
TICK_COUNT together. -/

namespace Sys2Proof.Machine

/-! The answer of `exec` for each command, by the registers it leaves (spec/30_encoding.md R63). -/

section ExecArms
variable (sel : BitVec 4) (data : BitVec 32) (s : State)
@[simp] theorem exec_nop : exec (.nop sel data) s = .next s := rfl
@[simp] theorem exec_reset : exec (.reset sel data) s = .next s.resetBlock := rfl
@[simp] theorem exec_init : exec (.init sel data) s = .next (s.withRegs (initRegs sel data s.regs)) := rfl
@[simp] theorem exec_sample :
    exec (.sample sel data) s = .next (s.withRegs (sampleRegs s.rom s.ports sel s.regs)) := rfl
@[simp] theorem exec_read :
    exec (.read sel data) s = .next (s.withRegs { s.regs with rdData := reg32 s.rom s.regs sel }) := rfl
end ExecArms

/-- No error bit is the TICK bit, so raising an error leaves TICK (60_exceptions.md R121). -/
@[simp] theorem ErrKind.tick_ne_flag (e : ErrKind) : Flag.tick ≠ e.flag := by
  cases e <;> decide

/-- Steps 7 and 8 leave TICK as step 5 set it, whether or not ERR_FREQ is raised (40_sample_step.md R82, R83). -/
@[simp] theorem tickVoices_tick (rom : Vector F32 5) (o : F32) (sel : BitVec 4) (d : Fin 5) (r : Regs) :
    getFlag (tickVoices rom o sel d r).status .tick = getFlag r.status .tick := by
  simp only [tickVoices]
  split <;> simp

@[simp] theorem tickVoices_tickCount (rom : Vector F32 5) (o : F32) (sel : BitVec 4) (d : Fin 5) (r : Regs) :
    (tickVoices rom o sel d r).tickCount = r.tickCount := by
  obtain ⟨-, -, -, hcount, -⟩ := tickVoices_frame rom o sel d r
  exact hcount

/-- INIT leaves TICK_COUNT, whether it loads the rate or raises ERR_SEQ (41_init_and_control.md R101). -/
@[simp] theorem initRegs_tickCount (sel : BitVec 4) (data : F32) (r : Regs) :
    (initRegs sel data r).tickCount = r.tickCount := by
  unfold initRegs
  split <;> rfl

/-- A SAMPLE counts exactly when it leaves TICK at 1: ERR_SEQ, ERR_RATE and an advance without a tick leave it 0, and every
tick, ERR_DRAW or not, sets it. -/
theorem sampleRegs_tickCount (rom : Vector F32 5) (p : Ports) (sel : BitVec 4) (r : Regs) :
    (sampleRegs rom p sel r).tickCount =
      r.tickCount + if getFlag (sampleRegs rom p sel r).status .tick then 1#32 else 0#32 := by
  obtain ⟨-, hseq⟩ | ⟨-, -, hrate⟩ | ⟨-, -, hstill, hadvance⟩ | ⟨-, -, htick, -, hdraw⟩ |
    ⟨-, -, htick, _, hvoices⟩ := sampleRegs_cases rom p sel r
  · simp [hseq]
  · simp [hrate]
  · simp [hadvance, hstill]
  · simp [hdraw, htick]
  · simp [hvoices, htick]

/-- The same on numbers: the count wraps at `2 ^ 32` (10_state.md R29). -/
theorem sampleRegs_tickCount_toNat (rom : Vector F32 5) (p : Ports) (sel : BitVec 4) (r : Regs) :
    (sampleRegs rom p sel r).tickCount.toNat =
      (r.tickCount.toNat + if getFlag (sampleRegs rom p sel r).status .tick then 1 else 0) % 2 ^ 32 := by
  rw [sampleRegs_tickCount, BitVec.toNat_add]
  split <;> rfl

/-- Settles O38, by cases on the command: SAMPLE is `sampleRegs_tickCount_toNat`, and the others write 0 or nothing. -/
theorem tickCountCountsTicks : Obligations.TickCountCountsTicks := by
  intro i s t h
  cases i with
  | nop sel data =>
    obtain rfl := Host.Outcome.next.inj (exec_nop sel data s ▸ h)
    rfl
  | reset sel data =>
    obtain rfl := Host.Outcome.next.inj (exec_reset sel data s ▸ h)
    rfl
  | init sel data =>
    obtain rfl := Host.Outcome.next.inj (exec_init sel data s ▸ h)
    exact congrArg BitVec.toNat (initRegs_tickCount sel data s.regs)
  | sample sel data =>
    obtain rfl := Host.Outcome.next.inj (exec_sample sel data s ▸ h)
    exact sampleRegs_tickCount_toNat s.rom s.ports sel s.regs
  | read sel data =>
    obtain rfl := Host.Outcome.next.inj (exec_read sel data s ▸ h)
    rfl

end Sys2Proof.Machine
end

section
/-! PROOF. A READ writes RD_DATA, which the select map does not name, so no register that can be read changes
(spec/20_memory.md R51). -/

namespace Sys2Proof.Machine

/-- RD_DATA is not among the sixteen named registers (10_state.md R23, R34). -/
@[simp] theorem regValue_with_rdData (rom : Vector F32 5) (r : Regs) (v : Word32) (n : RegName) :
    regValue rom { r with rdData := v } n = regValue rom r n := by
  cases n <;> rfl

/-- Hence no `sel` reads RD_DATA (42_readback.md R110). -/
@[simp] theorem reg32_with_rdData (rom : Vector F32 5) (r : Regs) (v : Word32) (sel : BitVec 4) :
    reg32 rom { r with rdData := v } sel = reg32 rom r sel :=
  regValue_with_rdData rom r v (regOfSel sel)

/-- Settles O17: the state after a READ differs from the one before in RD_DATA only, which `reg32` does not see. -/
theorem readHasNoSideEffect : Obligations.ReadHasNoSideEffect := by
  intro sel data s t h
  obtain rfl := Host.Outcome.next.inj (exec_read sel data s ▸ h)
  exact ⟨reg32_with_rdData s.rom s.regs (reg32 s.rom s.regs sel), rfl, rfl⟩

end Sys2Proof.Machine
end


section
/-! PROOF. The decoder on the word of a command and on a reserved word (spec/30_encoding.md R63 to R65), and the reference
words (R70). -/

namespace Sys2Proof

/-- A command's word decodes to the command with both its operand fields (30_encoding.md R65). -/
@[simp] theorem decode_encode (i : Instr) : decode (encode i) = .instr i := by
  cases i <;> simp [decode, encode, Instr.opcode, Instr.sel, Instr.data, opNop, opReset, opInit, opSample, opRead]

/-- The operation codes 5..15 are reserved: none of the five commands has one (30_encoding.md R64). -/
theorem decode_of_five_le_op {w : Cmd} (h : 5 ≤ (opField w).toNat) : decode w = .reserved (opField w) (selField w) := by
  have op_ne (op : BitVec 4) (hop : op.toNat < 5) : opField w ≠ op := by
    rintro rfl
    omega
  simp only [decode, if_neg (op_ne opNop (by decide)), if_neg (op_ne opReset (by decide)),
    if_neg (op_ne opInit (by decide)), if_neg (op_ne opSample (by decide)), if_neg (op_ne opRead (by decide))]

/-- Settles O3: the listed words are those of `encode`, by evaluation; the two command words decode by `decode_encode`, and
the reserved one by its operation code 7. -/
theorem referenceEncodings : Obligations.ReferenceEncodings := by
  have init48000 : encode (.init 0 0x473B8000#32) = 0x20473B8000#40 := by decide
  have readTickCount : encode (.read RegName.tickCount.number 0) = 0x4500000000#40 := by decide
  have reserved7 : decode 0x7000000000#40 = .reserved 7 0 := decode_of_five_le_op (by decide)
  exact ⟨by decide, by decide, init48000, by decide, by decide, by decide, readTickCount, by decide, by decide, reserved7,
    init48000 ▸ decode_encode _, readTickCount ▸ decode_encode _⟩

end Sys2Proof
end

section
/-! PROOF. What a step answers at a coming edge with reset released: an idle edge, a command, or a reserved word
(spec/30_encoding.md R60, R64). -/

namespace Sys2Proof.Machine

/-- A step takes the values of the oldest coming edge onto the ports. -/
theorem step_of_edge {s : State} {p : Ports} {rest : List Ports} (he : s.edges = p :: rest) :
    step s = clockEdge (s.acceptEdge p rest) := by
  simp only [step, nextEdge, he]

section Released
variable {s : State} {p : Ports} {rest : List Ports} (he : s.edges = p :: rest) (hrst : p.rstN = true)
include he hrst

/-- With `cmd_valid = 0` the edge only moves the environment on (30_encoding.md R60). -/
theorem step_idle (hvalid : p.cmdValid = false) : step s = .next (s.acceptEdge p rest) := by
  simp [step_of_edge he, clockEdge, hrst, hvalid]

theorem step_accepts (hvalid : p.cmdValid = true) : step s = acceptCommand (s.acceptEdge p rest) := by
  simp [step_of_edge he, clockEdge, hrst, hvalid]

/-- An accepted command executes with the values of its own edge on the ports (30_encoding.md R60). -/
theorem step_command (hvalid : p.cmdValid = true) {i : Instr} (hd : decode p.cmd = .instr i) :
    step s = exec i (s.acceptEdge p rest) := by
  simp [step_accepts he hrst hvalid, acceptCommand, hd]

/-- An accepted reserved word raises ERR_OPCODE with its own fields (30_encoding.md R64). -/
theorem step_reserved (hvalid : p.cmdValid = true) {op sel : BitVec 4} (hd : decode p.cmd = .reserved op sel) :
    step s = .next ((s.acceptEdge p rest).withRegs (raise .opcode op sel s.regs)) := by
  simp [step_accepts he hrst hvalid, acceptCommand, hd, execReserved]

end Released

/-- Settles O6: an accepting edge is `step_command`, an idle one `step_idle`. -/
theorem edgeRunsTheDecodedCommand : Obligations.EdgeRunsTheDecodedCommand := by
  intro s p rest he hrst
  exact ⟨fun hvalid _ hd => step_command he hrst hvalid hd, fun hvalid => step_idle he hrst hvalid⟩

/-- Settles O8: the decoder answers `reserved`, so the step is `raise ERR_OPCODE` on the registers; the statement writes out
its STATUS bit 3 and its ERR_INFO (60_exceptions.md R123). -/
theorem reservedOpcodeRaisesErrOpcode : Obligations.ReservedOpcodeRaisesErrOpcode := by
  intro s p rest he hrst hvalid hop
  exact step_reserved he hrst hvalid (decode_of_five_le_op hop)

end Sys2Proof.Machine
end

section
/-! PROOF. The timer phase stays in `[+0.0, 1.0)` and one wrap removes exactly one period (spec/40_sample_step.md R79, R85):
the words of that interval are those with bits below `1.0`'s, the sum of two of its values rounds below `2.0`, and above
`1.0` the difference is representable. -/

namespace Sys2Proof.Machine

/-! ### Words of clear sign -/

theorem signBit_of_toNat_lt {a : F32} (h : a.toNat < 2 ^ 31) : signBit a = false :=
  decide_eq_false (Nat.not_le_of_lt h)

theorem finite32_of_toNat_lt {a : F32} (h : a.toNat < infBits) : finite32 a = true := by
  have hmag : magBits a = a.toNat := Nat.mod_eq_of_lt (h.trans (by decide))
  rwa [finite32_iff, hmag]

/-- They are ordered as their bits. -/
theorem units32_lt_iff {a b : F32} (ha : a.toNat < 2 ^ 31) (hb : b.toNat < 2 ^ 31) :
    units32 a < units32 b ↔ a.toNat < b.toNat := by
  rw [units32_of_sign_clear ha, units32_of_sign_clear hb, Nat.cast_lt, unitsOf_strictMono.lt_iff_lt]

/-! ### The interval -/

/-- Of the words with the sign set, only `-0.0` is not below zero. -/
theorem units32_nonneg_iff (a : F32) : 0 ≤ units32 a ↔ (signBit a = true → magBits a = 0) := by
  cases hs : signBit a <;> simp [units32, hs, unitsOf_eq_zero_iff]

/-- A value that is not below zero is its magnitude, `-0.0` included. -/
theorem units32_of_nonneg {a : F32} (h : 0 ≤ units32 a) : units32 a = (unitsOf (magBits a) : Int) := by
  cases hs : signBit a with
  | false => simp [units32, hs]
  | true => simp [units32, hs, (units32_nonneg_iff a).mp h hs, unitsOf_zero]

/-- A word from a zero of either sign up to below `1.0` is one that is not below zero and has magnitude bits below those of
`1.0`. -/
theorem unit_range_iff (a : F32) :
    (ge32 a zero32 = true ∧ lt32 a one32 = true) ↔ 0 ≤ units32 a ∧ magBits a < one32.toNat := by
  have hzero : units32 zero32 = 0 := by decide
  have hone : units32 one32 = (unitsOf one32.toNat : Int) := units32_of_sign_clear (by decide)
  rw [ge32_iff, lt32_iff, hzero, hone]
  constructor
  · rintro ⟨⟨-, -, hge⟩, -, -, hlt⟩
    rw [units32_of_nonneg hge, Nat.cast_lt, unitsOf_strictMono.lt_iff_lt] at hlt
    exact ⟨hge, hlt⟩
  · rintro ⟨hge, hlt⟩
    have hnan : isNaN32 a = false := finite32_not_nan ((finite32_iff a).mpr (hlt.trans (by decide)))
    refine ⟨⟨hnan, by decide, hge⟩, hnan, by decide, ?_⟩
    rwa [units32_of_nonneg hge, Nat.cast_lt, unitsOf_strictMono.lt_iff_lt]

/-- What 40_sample_step.md R85 keeps of PHASE: `+0.0 <= a < 1.0`, and not `-0.0`. -/
def PhaseInUnit (a : F32) : Prop :=
  ge32 a zero32 = true ∧ lt32 a one32 = true ∧ a ≠ 0x80000000#32

/-- The interval's words are consecutive from `+0.0` up to the one below `1.0`. -/
theorem phaseInUnit_iff (a : F32) : PhaseInUnit a ↔ a.toNat < one32.toNat := by
  have hone : one32.toNat < 2 ^ 31 := by decide
  have hword := toNat_eq_sign_mag a
  unfold PhaseInUnit
  rw [← and_assoc, unit_range_iff, units32_nonneg_iff]
  cases hs : signBit a with
  | false =>
    have hne : a ≠ 0x80000000#32 := by
      rintro rfl
      exact absurd hs (by decide)
    simp [hs] at hword
    simp [hword, hne]
  | true =>
    simp only [hs, if_true] at hword
    constructor
    · rintro ⟨⟨hmag, -⟩, hne⟩
      refine absurd (BitVec.eq_of_toNat_eq ?_) hne
      rw [hword, hmag rfl]
      rfl
    · intro h
      omega

theorem PhaseInUnit.sign_clear {a : F32} (h : PhaseInUnit a) : signBit a = false := by
  rw [phaseInUnit_iff] at h
  exact signBit_of_toNat_lt (h.trans (by decide))

/-! ### Sums of a nonnegative exact value -/

theorem units32_pack32_false {b : Nat} (h : b < 2 ^ 31) : units32 (pack32 false b) = (unitsOf b : Int) := by
  simp [units32, signBit_pack32 false h, magBits_pack32 false h]

/-- A sum with an exact value of `u >= 0` units and a first summand of clear sign is `u` rounded, its sign clear. -/
theorem add32_of_nonneg {a b : F32} {u : Nat} (ha : finite32 a = true) (hb : finite32 b = true)
    (hsign : signBit a = false) (hu : units32 a + units32 b = (u : Int)) :
    add32 a b = pack32 false (roundUnits u 1) := by
  rw [add32_finite ha hb, hu, hsign]
  split
  case isTrue h0 =>
    obtain rfl : u = 0 := by exact_mod_cast h0
    rfl
  case isFalse =>
    rw [decide_eq_false (by omega), Int.natAbs_natCast]

/-- Where that value is representable, the sum is exact. -/
theorem add32_of_representable {a b : F32} {c : Nat} (ha : finite32 a = true) (hb : finite32 b = true)
    (hsign : signBit a = false) (hc : c ≤ infBits) (hu : units32 a + units32 b = (unitsOf c : Int)) :
    add32 a b = pack32 false c := by
  rw [add32_of_nonneg ha hb hsign hu, roundUnits_unitsOf hc]

/-- Every significand of at most 24 bits has a word in every binade: one without its leading one is that of twice the
significand a binade lower. -/
theorem exists_unitsOf_eq (k : Nat) {m : Nat} (hm : m < 2 ^ 24) :
    ∃ b ≤ k * 2 ^ 23 + 2 ^ 24, unitsOf b = m * 2 ^ k := by
  induction k generalizing m with
  | zero => exact ⟨m, by omega, by rw [unitsOf_small hm, pow_zero, mul_one]⟩
  | succ k ih =>
    by_cases hlead : 2 ^ 23 ≤ m
    · exact ⟨(k + 1) * 2 ^ 23 + m, by gcongr, unitsOf_normal hlead hm.le⟩
    · obtain ⟨b, hb, hunits⟩ := ih (m := 2 * m) (by omega)
      have htwice : 2 * m * 2 ^ k = m * 2 ^ (k + 1) := by ring
      exact ⟨b, hb.trans (by gcongr; exact k.le_succ), hunits.trans htwice⟩

/-! ### The advance and the wrap -/

/-- `2.0`, which the sum of a phase and an increment does not reach. -/
def two32 : F32 := 0x40000000#32

/-- Advancing a phase gives a word from `+0.0` up to the one below `2.0`: the largest exact sum, twice the value below
`1.0`, is that word's value, and rounding keeps the order (40_sample_step.md R79, R85). -/
theorem add32_unit_toNat_lt {ph inc : F32} (hph : PhaseInUnit ph) (hge : ge32 inc zero32 = true)
    (hlt : lt32 inc one32 = true) : (add32 ph inc).toNat < two32.toNat := by
  obtain ⟨hphNonneg, hphMag⟩ := (unit_range_iff ph).mp ⟨hph.1, hph.2.1⟩
  obtain ⟨hincNonneg, hincMag⟩ := (unit_range_iff inc).mp ⟨hge, hlt⟩
  have hfinite {a : F32} (h : magBits a < one32.toNat) : finite32 a = true :=
    (finite32_iff a).mpr (h.trans (by decide))
  have hsum : units32 ph + units32 inc = ((unitsOf (magBits ph) + unitsOf (magBits inc) : Nat) : Int) := by
    rw [units32_of_nonneg hphNonneg, units32_of_nonneg hincNonneg, Nat.cast_add]
  rw [add32_of_nonneg (hfinite hphMag) (hfinite hincMag) hph.sign_clear hsum, pack32_toNat false (roundUnits_lt _ _)]
  have hbelow {b : Nat} (h : b < one32.toNat) : unitsOf b ≤ unitsOf (one32.toNat - 1) :=
    unitsOf_strictMono.monotone (Nat.le_sub_one_of_lt h)
  have hlargest : unitsOf (one32.toNat - 1) + unitsOf (one32.toNat - 1) = unitsOf (two32.toNat - 1) := by decide
  have hround : roundUnits (unitsOf (magBits ph) + unitsOf (magBits inc)) 1 ≤ two32.toNat - 1 := by
    calc roundUnits (unitsOf (magBits ph) + unitsOf (magBits inc)) 1
        ≤ roundUnits (unitsOf (two32.toNat - 1)) 1 :=
          roundUnits_mono 1 (hlargest ▸ Nat.add_le_add (hbelow hphMag) (hbelow hincMag))
      _ = two32.toNat - 1 := roundUnits_unitsOf (by decide)
  have htwo : 0 < two32.toNat := by decide
  simp only [Bool.false_eq_true, if_false]
  omega

/-- Below `2.0` one wrap is exact and ends below `1.0`: with the sum `2^23 + f` in the binade of `1.0`, `f` remains, which
is representable (40_sample_step.md R85). -/
theorem sub32_one_exact {a : F32} (hlo : one32.toNat ≤ a.toNat) (hhi : a.toNat < two32.toNat) :
    (sub32 a one32).toNat < one32.toNat ∧ units32 (sub32 a one32) = units32 a - units32 one32 := by
  have hone : one32.toNat = 126 * 2 ^ 23 + 2 ^ 23 := by decide
  have htwo : two32.toNat = 126 * 2 ^ 23 + 2 ^ 24 := by decide
  obtain ⟨f, hf⟩ := Nat.exists_eq_add_of_le hlo
  have hword : a.toNat = 126 * 2 ^ 23 + (2 ^ 23 + f) := by omega
  have hunits : units32 a = (((2 ^ 23 + f) * 2 ^ 126 : Nat) : Int) := by
    rw [units32_of_sign_clear (by omega), hword, unitsOf_normal (by omega) (by omega)]
  have hunitsOne : units32 one32 = ((2 ^ 23 * 2 ^ 126 : Nat) : Int) := by decide
  obtain ⟨c, hc, hcUnits⟩ := exists_unitsOf_eq 126 (m := f) (by omega)
  have hexact : units32 a - units32 one32 = (unitsOf c : Int) := by
    rw [hunits, hunitsOne, hcUnits]
    push_cast
    ring
  have hcOne : c < one32.toNat := by
    rw [← unitsOf_strictMono.lt_iff_lt, hcUnits, hone, unitsOf_normal (le_refl _) (by decide)]
    exact Nat.mul_lt_mul_of_pos_right (by omega) (by positivity)
  have hsub : sub32 a one32 = pack32 false c := by
    refine add32_of_representable (finite32_of_toNat_lt (hhi.trans (by decide))) (by decide)
      (signBit_of_toNat_lt (by omega)) (hc.trans (by decide)) ?_
    rw [units32_neg32, ← sub_eq_add_neg, hexact]
  have hc31 : c < 2 ^ 31 := by omega
  rw [hsub, hexact, units32_pack32_false hc31, pack32_toNat false hc31]
  exact ⟨by simpa using hcOne, rfl⟩

theorem lt32_two_of_toNat_lt {a : F32} (h : a.toNat < two32.toNat) : lt32 a two32 = true := by
  rw [lt32_iff, units32_lt_iff (h.trans (by decide)) (by decide)]
  exact ⟨finite32_not_nan (finite32_of_toNat_lt (h.trans (by decide))), by decide, h⟩

/-- Below `2.0`, whether the advance ticks can be read off the bits (40_sample_step.md R79). -/
theorem ge32_one_iff {a : F32} (h : a.toNat < two32.toNat) : ge32 a one32 = true ↔ one32.toNat ≤ a.toNat := by
  rw [ge32_iff, ← not_lt, units32_lt_iff (h.trans (by decide)) (by decide), not_lt]
  exact ⟨fun ⟨_, _, hle⟩ => hle,
    fun hle => ⟨finite32_not_nan (finite32_of_toNat_lt (h.trans (by decide))), by decide, hle⟩⟩

/-- An advance with an admitted increment keeps the phase in its interval: below `1.0` it is the sum, else the wrapped sum
(40_sample_step.md R79). -/
theorem wrappedPhase_inUnit {inc : F32} {r : Regs} (hph : PhaseInUnit r.phase) (hinc : incAdmitted inc = true) :
    PhaseInUnit (wrappedPhase inc r) := by
  obtain ⟨hge, hlt⟩ : ge32 inc zero32 = true ∧ lt32 inc one32 = true := by simpa [incAdmitted] using hinc
  have hsum : (phaseSum inc r).toNat < two32.toNat := add32_unit_toNat_lt hph hge hlt
  rw [phaseInUnit_iff, wrappedPhase]
  by_cases htick : sampleTicks inc r = true
  · rw [if_pos htick]
    exact (sub32_one_exact ((ge32_one_iff hsum).mp htick) hsum).1
  · rw [if_neg htick]
    exact Nat.lt_of_not_le fun hle => htick ((ge32_one_iff hsum).mpr hle)

/-! ### What the commands do to PHASE -/

/-- A SAMPLE leaves PHASE, or advances it with an admitted increment (40_sample_step.md R76 to R80). -/
theorem sampleRegs_phase_cases (rom : Vector F32 5) (p : Ports) (sel : BitVec 4) (r : Regs) :
    (sampleRegs rom p sel r).phase = r.phase ∨
      incAdmitted (increment p r) = true ∧ (sampleRegs rom p sel r).phase = wrappedPhase (increment p r) r := by
  obtain ⟨-, hseq⟩ | ⟨-, -, hrate⟩ | ⟨-, hinc, -, hadvance⟩ | ⟨-, hinc, -, -, hdraw⟩ |
    ⟨-, hinc, -, hd, hvoices⟩ := sampleRegs_cases rom p sel r
  · exact .inl (by simp [hseq])
  · exact .inl (by simp [hrate])
  · exact .inr ⟨hinc, by simp [hadvance]⟩
  · exact .inr ⟨hinc, by simp [hdraw]⟩
  · obtain ⟨-, hphase, -⟩ := tickVoices_frame rom p.freqOffset sel ⟨p.rndIdx.toNat, hd⟩
      { advanceRegs (increment p r) r with tickCount := r.tickCount + 1#32 }
    exact .inr ⟨hinc, hvoices ▸ hphase⟩

/-- INIT writes `+0.0` to PHASE, or leaves it where it raises ERR_SEQ (41_init_and_control.md R101). -/
theorem initRegs_phase (sel : BitVec 4) (data : F32) (r : Regs) :
    (initRegs sel data r).phase = if rateLoadable data then zero32 else r.phase := by
  unfold initRegs
  split <;> rfl

theorem zero32_phaseInUnit : PhaseInUnit zero32 := (phaseInUnit_iff zero32).mpr (by decide)

/-- Every command keeps the phase in its interval (40_sample_step.md R85). -/
theorem exec_keeps_phaseInUnit {i : Instr} {s t : State} (h : exec i s = .next t) (hph : PhaseInUnit s.regs.phase) :
    PhaseInUnit t.regs.phase := by
  cases i with
  | nop sel data =>
    obtain rfl := Host.Outcome.next.inj (exec_nop sel data s ▸ h)
    exact hph
  | reset sel data =>
    obtain rfl := Host.Outcome.next.inj (exec_reset sel data s ▸ h)
    exact zero32_phaseInUnit
  | init sel data =>
    obtain rfl := Host.Outcome.next.inj (exec_init sel data s ▸ h)
    rw [State.withRegs_regs, initRegs_phase]
    split
    · exact zero32_phaseInUnit
    · exact hph
  | sample sel data =>
    obtain rfl := Host.Outcome.next.inj (exec_sample sel data s ▸ h)
    rw [State.withRegs_regs]
    obtain hheld | ⟨hinc, hadvanced⟩ := sampleRegs_phase_cases s.rom s.ports sel s.regs
    · rwa [hheld]
    · rw [hadvanced]
      exact wrappedPhase_inUnit hph hinc
  | read sel data =>
    obtain rfl := Host.Outcome.next.inj (exec_read sel data s ▸ h)
    exact hph

/-- Settles O28: PHASE is `+0.0` at reset, `exec_keeps_phaseInUnit` is the step, and the sum and the wrap are
`add32_unit_toNat_lt` and `sub32_one_exact`. -/
theorem phaseStaysInUnitInterval : Obligations.PhaseStaysInUnitInterval := by
  refine ⟨zero32_phaseInUnit, ?keeps, ?wrap⟩
  case keeps =>
    intro i s t h hge hlt hne
    exact exec_keeps_phaseInUnit h ⟨hge, hlt, hne⟩
  case wrap =>
    intro ph inc hge hlt hne hincGe hincLt
    have hsum : (add32 ph inc).toNat < two32.toNat := add32_unit_toNat_lt ⟨hge, hlt, hne⟩ hincGe hincLt
    exact ⟨lt32_two_of_toNat_lt hsum, fun hwrap => (sub32_one_exact ((ge32_one_iff hsum).mp hwrap) hsum).2⟩

end Sys2Proof.Machine
end

section
/-! PROOF. The frequency offset and the draw reach the registers through `tickRegs` alone (spec/40_sample_step.md R88, R89). -/

namespace Sys2Proof.Machine

section SampleRegs
variable {rom : Vector F32 5} {p : Ports} {sel : BitVec 4} {r : Regs}

/-- A SAMPLE leaves TICK at 1 exactly when it gets to step 5 and ticks (40_sample_step.md R76 to R80). -/
theorem sampleRegs_tick :
    getFlag (sampleRegs rom p sel r).status .tick =
      (getFlag r.status .initDone && incAdmitted (increment p r) && sampleTicks (increment p r) r) := by
  obtain ⟨hinit, hseq⟩ | ⟨hinit, hinc, hrate⟩ | ⟨hinit, hinc, htick, hadvance⟩ | ⟨hinit, hinc, htick, -, hdraw⟩ |
    ⟨hinit, hinc, htick, _, hvoices⟩ := sampleRegs_cases rom p sel r
  · simp [hseq, hinit]
  · simp [hrate, hinc]
  · simp [hadvance, htick]
  · simp [hdraw, hinit, hinc, htick]
  · simp [hvoices, hinit, hinc, htick]

/-- The voices change only on a tick with a valid draw (40_sample_step.md R82, R88). -/
theorem sampleRegs_voiceFreq_held
    (h : getFlag (sampleRegs rom p sel r).status .tick = false ∨ 4 < p.rndIdx.toNat) :
    (sampleRegs rom p sel r).voiceFreq = r.voiceFreq := by
  obtain ⟨-, hseq⟩ | ⟨-, -, hrate⟩ | ⟨-, -, -, hadvance⟩ | ⟨-, -, -, -, hdraw⟩ |
    ⟨hinit, hinc, htick, hd, -⟩ := sampleRegs_cases rom p sel r
  · simp [hseq]
  · simp [hrate]
  · simp [hadvance]
  · simp [hdraw]
  · rw [sampleRegs_tick, hinit, hinc, htick] at h
    obtain h | h := h
    · exact absurd h (by decide)
    · omega

/-- Two SAMPLEs at the same clock rate end alike if, where the first ticks, steps 5 to 8 do: the ports enter through the
increment and through `tickRegs` (40_sample_step.md R84). -/
theorem sampleRegs_eq_of_tickRegs_eq {q : Ports} (hrate : q.clockRate = p.clockRate)
    (htick : getFlag (sampleRegs rom p sel r).status .tick = true →
      tickRegs rom q sel (advanceRegs (increment p r) r) = tickRegs rom p sel (advanceRegs (increment p r) r)) :
    sampleRegs rom q sel r = sampleRegs rom p sel r := by
  have hinc : increment q r = increment p r := by rw [increment, increment, hrate]
  rw [sampleRegs_tick] at htick
  simp only [sampleRegs, hinc]
  split_ifs with hinit hadmitted hticks
  · rfl
  · rfl
  · rfl
  · exact htick (by simp [hinit, hadmitted, hticks])

end SampleRegs

/-- A draw above 4 ends the tick before the offset is read (40_sample_step.md R81). -/
theorem tickRegs_bad_draw {rom : Vector F32 5} {p : Ports} {sel : BitVec 4} {r : Regs} (h : 4 < p.rndIdx.toNat) :
    tickRegs rom p sel r = raise .draw opSample sel { r with tickCount := r.tickCount + 1#32 } :=
  dif_neg (by omega)

/-- So the offset does not enter it. -/
theorem tickRegs_bad_draw_offset {rom : Vector F32 5} {p : Ports} {sel : BitVec 4} {r : Regs}
    (h : 4 < p.rndIdx.toNat) (o : F32) :
    tickRegs rom { p with freqOffset := o } sel r = tickRegs rom p sel r := by
  rw [tickRegs_bad_draw h, tickRegs_bad_draw (p := { p with freqOffset := o }) h]

/-- A SAMPLE with other port values leaves the same registers, if its effect on the registers is the same. -/
theorem exec_sample_with_ports {sel : BitVec 4} {data : BitVec 32} {s : State} {q : Ports}
    (h : sampleRegs s.rom q sel s.regs = sampleRegs s.rom s.ports sel s.regs) :
    exec (.sample sel data) { s with ports := q } =
      .next { s.withRegs (sampleRegs s.rom s.ports sel s.regs) with ports := q } := by
  rw [exec_sample, ← h]
  rfl

/-- Settles O25: without a tick `tickRegs` does not run, and with a draw above 4 it does not read the offset. -/
theorem offsetAndDrawReadOnlyOnTick : Obligations.OffsetAndDrawReadOnlyOnTick := by
  intro sel data s t h
  obtain rfl := Host.Outcome.next.inj (exec_sample sel data s ▸ h)
  constructor
  · intro hstill
    rw [State.withRegs_regs] at hstill
    refine ⟨sampleRegs_voiceFreq_held (.inl hstill), fun o d => exec_sample_with_ports ?_⟩
    exact sampleRegs_eq_of_tickRegs_eq rfl fun htick => absurd (hstill.symm.trans htick) (by decide)
  · intro hdraw
    refine ⟨sampleRegs_voiceFreq_held (.inr hdraw), fun o => exec_sample_with_ports ?_⟩
    exact sampleRegs_eq_of_tickRegs_eq rfl fun _ => tickRegs_bad_draw_offset hdraw o

end Sys2Proof.Machine
end

section
/-! PROOF. NOP and RESET (spec/41_init_and_control.md R100, R102): the words that decode to them, and that every command but
RESET keeps the errors raised before it (spec/60_exceptions.md R120, R124). -/

namespace Sys2Proof

/-! ### Words selected by their operation code -/

/-- Masking a word with `op`'s four bits leaves its `op` (30_encoding.md R61, R63). -/
theorem opField_masked (w : Cmd) : opField (w &&& 0xF000000000#40) = opField w :=
  calc opField (w &&& 0xF000000000#40)
      = opField w &&& opField 0xF000000000#40 := BitVec.extractLsb'_and
    _ = opField w &&& BitVec.allOnes 4 := rfl
    _ = opField w := BitVec.and_allOnes

theorem decode_of_op_nop {w : Cmd} (h : opField w = opNop) : decode w = .instr (.nop (selField w) (dataField w)) :=
  if_pos h

theorem decode_of_op_reset {w : Cmd} (h : opField w = opReset) :
    decode w = .instr (.reset (selField w) (dataField w)) := by
  have hne : opField w ≠ opNop := h ▸ (by decide : opReset ≠ opNop)
  rw [decode, if_neg hne, if_pos h]

namespace Machine

/-- Settles O12: the decoder reads `op` alone, `exec` answers the state it is given, and so does an idle edge, by
`step_idle`. -/
theorem nopChangesNothing : Obligations.NopChangesNothing := by
  refine ⟨fun w hw => ⟨_, _, decode_of_op_nop ?_⟩, exec_nop, fun s p rest he hrst hvalid => step_idle he hrst hvalid⟩
  rw [← opField_masked, hw]
  rfl

/-! ### Errors kept by a command -/

/-- Every error raised in `r` is still raised in `r'`, and an error recorded in `r` is still the recorded one
(60_exceptions.md R120, R124). -/
structure ErrorsKept (r r' : Regs) : Prop where
  sticky : ∀ e : ErrKind, getFlag r.status e.flag = true → getFlag r'.status e.flag = true
  recorded : r.errInfo.code ≠ 0#3 → r'.errInfo = r.errInfo

theorem ErrorsKept.refl (r : Regs) : ErrorsKept r r := ⟨fun _ h => h, fun _ => rfl⟩

theorem ErrorsKept.trans {r r' r'' : Regs} (h : ErrorsKept r r') (h' : ErrorsKept r' r'') : ErrorsKept r r'' where
  sticky e he := h'.sticky e (h.sticky e he)
  recorded hcode := by
    have hfirst : r'.errInfo = r.errInfo := h.recorded hcode
    exact (h'.recorded (hfirst ▸ hcode)).trans hfirst

/-- Only STATUS and ERR_INFO matter to it. -/
theorem ErrorsKept.congr {r q q' : Regs} (h : ErrorsKept r q) (hstatus : q'.status = q.status)
    (hinfo : q'.errInfo = q.errInfo) : ErrorsKept r q' where
  sticky := hstatus ▸ h.sticky
  recorded := hinfo ▸ h.recorded

@[simp] theorem ErrKind.initDone_ne_flag (e : ErrKind) : Flag.initDone ≠ e.flag := by
  cases e <;> decide

@[simp] theorem ErrKind.freqValid_ne_flag (e : ErrKind) : Flag.freqValid ≠ e.flag := by
  cases e <;> decide

/-- Writing a flag that is no error bit keeps the errors. -/
theorem ErrorsKept.setFlag {f : Flag} (hf : ∀ e : ErrKind, f ≠ e.flag) (v : Bool) (r : Regs) :
    ErrorsKept r (r.setFlag f v) where
  sticky e he := by rwa [Regs.setFlag_status, getFlag_putFlag, if_neg (hf e).symm]
  recorded _ := rfl

/-- A further error sets its own bit, and is not recorded over an earlier one (60_exceptions.md R123). -/
theorem ErrorsKept.raise (e : ErrKind) (op sel : BitVec 4) (r : Regs) : ErrorsKept r (raise e op sel r) where
  sticky e' he' := by
    rw [raise_status, getFlag_putFlag]
    split
    · rfl
    · exact he'
  recorded := recordFirst_of_recorded

theorem ErrorsKept.initRegs (sel : BitVec 4) (data : F32) (r : Regs) : ErrorsKept r (initRegs sel data r) := by
  have htick : ErrorsKept r (r.setFlag .tick false) := .setFlag ErrKind.tick_ne_flag false r
  unfold Machine.initRegs
  split
  · exact (htick.trans (.setFlag ErrKind.initDone_ne_flag true _)).congr rfl rfl
  · exact htick.trans (.raise .seq opInit sel _)

theorem ErrorsKept.advanceRegs (inc : F32) (r : Regs) : ErrorsKept r (advanceRegs inc r) :=
  (ErrorsKept.setFlag ErrKind.tick_ne_flag (sampleTicks inc r) r).congr rfl rfl

theorem ErrorsKept.tickVoices (rom : Vector F32 5) (o : F32) (sel : BitVec 4) (d : Fin 5) (r : Regs) :
    ErrorsKept r (tickVoices rom o sel d r) := by
  have hvoices : ErrorsKept r { r.setFlag .freqValid true with
      pitchIndex := BitVec.ofNat 3 d.val, voiceFreq := voiceFreqs (pitchTableAt rom d) o } :=
    (ErrorsKept.setFlag ErrKind.freqValid_ne_flag true r).congr rfl rfl
  simp only [Machine.tickVoices]
  split
  · exact hvoices
  · exact hvoices.trans (.raise .freq opSample sel _)

/-- However a SAMPLE ends, the errors before it are kept. -/
theorem ErrorsKept.sampleRegs (rom : Vector F32 5) (p : Ports) (sel : BitVec 4) (r : Regs) :
    ErrorsKept r (sampleRegs rom p sel r) := by
  have htick : ErrorsKept r (r.setFlag .tick false) := .setFlag ErrKind.tick_ne_flag false r
  have hcounted : ErrorsKept r { Machine.advanceRegs (increment p r) r with tickCount := r.tickCount + 1#32 } :=
    (ErrorsKept.advanceRegs (increment p r) r).congr rfl rfl
  obtain ⟨-, hseq⟩ | ⟨-, -, hrate⟩ | ⟨-, -, -, hadvance⟩ | ⟨-, -, -, -, hdraw⟩ | ⟨-, -, -, _, hvoices⟩ :=
    sampleRegs_cases rom p sel r
  · exact hseq ▸ htick.trans (.raise .seq opSample sel _)
  · exact hrate ▸ htick.trans (.raise .rate opSample sel _)
  · exact hadvance ▸ .advanceRegs (increment p r) r
  · exact hdraw ▸ hcounted.trans (.raise .draw opSample sel _)
  · exact hvoices ▸ hcounted.trans (.tickVoices rom p.freqOffset sel _ _)

/-- No command other than RESET clears an error or changes the recorded one (41_init_and_control.md R102). -/
theorem exec_keeps_errors {i : Instr} {s t : State} (hop : i.opcode ≠ opReset) (h : exec i s = .next t) :
    ErrorsKept s.regs t.regs := by
  cases i with
  | nop sel data =>
    obtain rfl := Host.Outcome.next.inj (exec_nop sel data s ▸ h)
    exact .refl s.regs
  | reset sel data => exact absurd rfl hop
  | init sel data =>
    obtain rfl := Host.Outcome.next.inj (exec_init sel data s ▸ h)
    exact .initRegs sel data s.regs
  | sample sel data =>
    obtain rfl := Host.Outcome.next.inj (exec_sample sel data s ▸ h)
    exact .sampleRegs s.rom s.ports sel s.regs
  | read sel data =>
    obtain rfl := Host.Outcome.next.inj (exec_read sel data s ▸ h)
    exact (ErrorsKept.refl s.regs).congr rfl rfl

/-! ### RESET -/

/-- Before a successful INIT a SAMPLE raises ERR_SEQ (40_sample_step.md R76). -/
theorem sampleRegs_before_init {rom : Vector F32 5} {p : Ports} {sel : BitVec 4} {r : Regs}
    (h : getFlag r.status .initDone = false) :
    sampleRegs rom p sel r = raise .seq opSample sel (r.setFlag .tick false) :=
  if_pos h

/-- RESET clears INIT_DONE, so the next SAMPLE sets ERR_SEQ (41_init_and_control.md R102). -/
theorem sampleRegs_reset_errSeq (rom : Vector F32 5) (p : Ports) (sel : BitVec 4) :
    getFlag (sampleRegs rom p sel Regs.reset).status .errSeq = true := by
  rw [sampleRegs_before_init (by simp)]
  simp [ErrKind.flag]

/-- Settles O13: RESET writes `Regs.reset`, whose values the statement lists; the other commands keep the errors by
`exec_keeps_errors`. -/
theorem resetCommandRestoresResetState : Obligations.ResetCommandRestoresResetState := by
  refine ⟨?word, exec_reset, ?others, ?sample⟩
  case word =>
    intro w hw
    refine ⟨_, _, decode_of_op_reset ?_⟩
    rw [← opField_masked, hw]
    rfl
  case others =>
    intro i s t hop h
    obtain ⟨hsticky, hrecorded⟩ := exec_keeps_errors hop h
    exact ⟨hsticky, hrecorded⟩
  case sample =>
    intro sel sel' data data' s t u hreset hsample
    obtain rfl := Host.Outcome.next.inj (exec_reset sel data s ▸ hreset)
    obtain rfl := Host.Outcome.next.inj (exec_sample sel' data' s.resetBlock ▸ hsample)
    exact sampleRegs_reset_errSeq s.rom s.ports sel'

end Machine

end Sys2Proof
end

section
/-! PROOF. The select map of READ and the output ports (spec/10_state.md R23, R39, spec/42_readback.md R110, R112): both show
the registers, the one by their numbers and the other continuously. -/

namespace Sys2Proof

theorem decode_of_op_read {w : Cmd} (h : opField w = opRead) : decode w = .instr (.read (selField w) (dataField w)) := by
  have op_ne {op : BitVec 4} (hop : opRead ≠ op) : opField w ≠ op := h ▸ hop
  rw [decode, if_neg (op_ne (by decide)), if_neg (op_ne (by decide)), if_neg (op_ne (by decide)),
    if_neg (op_ne (by decide)), if_pos h]

namespace Machine

/-! ### The select map -/

/-- The registers in the order of their numbers (10_state.md R23); `regValue_eq_selectMap` ties it to the model's `regValue`
and `RegName.number`. -/
def selectMap (rom : Vector F32 5) (r : Regs) : Vector Word32 16 :=
  #v[statusWord r.status, r.sampleRate, r.phase, r.phaseInc, pitchIndexWord r.pitchIndex, r.tickCount,
     r.voiceFreq[0], r.voiceFreq[1], r.voiceFreq[2], r.voiceFreq[3],
     rom[0], rom[1], rom[2], rom[3], rom[4], errInfoWord r.errInfo]

theorem regValue_eq_selectMap (rom : Vector F32 5) (r : Regs) (n : RegName) :
    regValue rom r n = (selectMap rom r)[n.number.toNat] := by
  cases n <;> rfl

/-- `reg32(sel)` is the `sel`-th register, as `sel` is the number of the register it names (42_readback.md R110). -/
theorem reg32_eq_selectMap (rom : Vector F32 5) (r : Regs) (sel : BitVec 4) :
    reg32 rom r sel = (selectMap rom r)[sel.toNat] := by
  simp only [reg32, regValue_eq_selectMap, number_regOfSel]

/-- Settles O16: the decoder reads `op` alone, and READ writes `reg32 sel` to RD_DATA, which is entry `sel` of the select
map. -/
theorem readCopiesSelectedRegister : Obligations.ReadCopiesSelectedRegister := by
  refine ⟨?word, ?answer⟩
  case word =>
    intro w hw
    refine ⟨_, decode_of_op_read ?_⟩
    rw [← opField_masked, hw]
    rfl
  case answer =>
    intro sel data s
    rw [exec_read, reg32_eq_selectMap]
    rfl

/-! ### The output ports -/

/-- The voice frequencies are registers 6 to 9 (10_state.md R23). -/
theorem reg32_voiceFreq (rom : Vector F32 5) (r : Regs) (k : Fin 4) :
    reg32 rom r (BitVec.ofNat 4 (6 + k.val)) = r.voiceFreq[k] :=
  match k with
  | 0 | 1 | 2 | 3 => rfl

/-- The upper bits of the PITCH_INDEX word are padding: its low three give the register back (10_state.md R28). -/
@[simp] theorem extractLsb'_pitchIndexWord (i : BitVec 3) : (pitchIndexWord i).extractLsb' 0 3 = i :=
  calc (i.setWidth 32).extractLsb' 0 3
      = (i.setWidth 32).setWidth 3 := (BitVec.setWidth_eq_extractLsb' (by decide)).symm
    _ = i.setWidth 3 := BitVec.setWidth_setWidth_of_le i (by decide)
    _ = i := BitVec.setWidth_eq i

/-- Settles O49: each port is its register by the definition of `Regs.outputs`; the readings by READ's numbers are
`reg32_voiceFreq` and `extractLsb'_pitchIndexWord`. -/
theorem outputPortsShowTheirRegisters : Obligations.OutputPortsShowTheirRegisters := by
  intro s
  have voices (k : Fin 4) : s.regs.outputs.voiceFreq[k] = reg32 s.rom s.regs (BitVec.ofNat 4 (6 + k.val)) :=
    (reg32_voiceFreq s.rom s.regs k).symm
  have pitch : s.regs.outputs.pitchIndex = (reg32 s.rom s.regs 4#4).extractLsb' 0 3 :=
    (extractLsb'_pitchIndexWord s.regs.pitchIndex).symm
  exact ⟨fun k => ⟨rfl, voices k⟩, rfl, pitch, rfl, rfl, rfl, rfl, rfl, rfl⟩

end Machine

end Sys2Proof
end

section
/-! PROOF. Errors and the `err` output (spec/60_exceptions.md R121, R123 to R125): what `raise` writes to the words that READ
shows, and that every edge which does not reset the block keeps the errors raised before it. -/

namespace Sys2Proof

/-- An instruction's opcode is the `op` of any word that decodes to it (30_encoding.md R63). -/
theorem opcode_of_decode {w : Cmd} {i : Instr} (h : decode w = .instr i) : i.opcode = opField w := by
  unfold decode at h
  split_ifs at h <;> obtain rfl := Decoded.instr.inj h <;> symm <;> assumption

namespace Machine

/-! ### The error bits of the STATUS word -/

/-- The sticky bit of the error with code `c` is bit `c + 2` (60_exceptions.md R121). -/
theorem ErrKind.flag_bit (e : ErrKind) : e.flag.bit = e.code.toNat + 2 := by
  cases e <;> rfl

/-- Bits 7:3 of STATUS are all sticky bits of errors. -/
theorem ErrKind.exists_flag_bit {i : Nat} (hi : i < 5) : ∃ e : ErrKind, e.flag.bit = 3 + i :=
  match i, hi with
  | 0, _ => ⟨.opcode, rfl⟩
  | 1, _ => ⟨.rate, rfl⟩
  | 2, _ => ⟨.draw, rfl⟩
  | 3, _ => ⟨.seq, rfl⟩
  | 4, _ => ⟨.freq, rfl⟩

/-- Setting a flag sets its bit of the STATUS word and no other. -/
theorem statusWord_putFlag_true (st : BitVec 8) (f : Flag) :
    statusWord (putFlag st f true) = statusWord st ||| 1#32 <<< f.bit := by
  have hmask : (1#8 <<< f.bit).setWidth 32 = 1#32 <<< f.bit := by cases f <;> rfl
  rw [← hmask]
  exact BitVec.setWidth_or

/-- Bits 7:3 of the STATUS word are zero exactly while no error bit is set. -/
theorem statusWord_errorBits_eq_zero_iff (st : BitVec 8) :
    (statusWord st).extractLsb' 3 5 = 0#5 ↔ ∀ e : ErrKind, getFlag st e.flag = false := by
  have bit {e : ErrKind} {i : Nat} (hi : i < 5) (he : e.flag.bit = 3 + i) :
      ((statusWord st).extractLsb' 3 5).getLsbD i = getFlag st e.flag := by
    rw [BitVec.getLsbD_extractLsb', ← he, statusWord_bit, decide_eq_true hi, Bool.true_and]
  constructor
  · intro hzero e
    obtain ⟨hplace, hlt⟩ : e.flag.bit = 3 + (e.flag.bit - 3) ∧ e.flag.bit - 3 < 5 := by cases e <;> decide
    rw [← bit hlt hplace, hzero, BitVec.getLsbD_zero]
  · intro hclear
    refine BitVec.eq_of_getLsbD_eq fun i hi => ?_
    obtain ⟨e, he⟩ := ErrKind.exists_flag_bit hi
    rw [bit hi he, hclear e, BitVec.getLsbD_zero]

/-! ### The ERR_INFO word -/

/-- Bits 2:0 of the ERR_INFO word are FIRST_CODE (10_state.md R33). -/
@[simp] theorem extractLsb'_errInfoWord (info : ErrInfo) : (errInfoWord info).extractLsb' 0 3 = info.code :=
  calc (errInfoWord info).extractLsb' 0 3
      = (info.sel ++ info.op ++ 0#1 ++ info.code).extractLsb' 0 3 := BitVec.extractLsb'_setWidth_of_le (by decide)
    _ = info.code := BitVec.extractLsb'_append_eq_right

/-- The ERR_INFO word takes the fields of the error where FIRST_CODE was zero, and stays otherwise. -/
theorem errInfoWord_recordFirst (e : ErrKind) (op sel : BitVec 4) (info : ErrInfo) :
    errInfoWord (recordFirst e op sel info) =
      if (errInfoWord info).extractLsb' 0 3 = 0#3 then errInfoWord { code := e.code, op := op, sel := sel }
      else errInfoWord info := by
  rw [extractLsb'_errInfoWord, recordFirst, apply_ite errInfoWord]

/-- Settles O32: each number listed is the code of its error, so `statusWord_putFlag_true` gives the STATUS bit and
`errInfoWord_recordFirst` the record; `raise` writes no other register. -/
theorem raiseSetsStickyBitAndRecordsFirst : Obligations.RaiseSetsStickyBitAndRecordsFirst := by
  intro e op sel r n hn
  obtain rfl : n = e.code.toNat := by cases e <;> simpa [ErrKind.code] using hn
  refine ⟨?status, ?errInfo, rfl⟩
  case status => rw [raise_status, statusWord_putFlag_true, ErrKind.flag_bit]
  case errInfo =>
    rw [raise_errInfo, errInfoWord_recordFirst, BitVec.ofNat_toNat, BitVec.setWidth_eq]
    rfl

/-! ### Errors kept by an edge -/

/-- An edge resets the block unless reset is released and no RESET is accepted (60_exceptions.md R120). -/
theorem Ports.resets_eq_false_iff (p : Ports) :
    p.resets = false ↔ p.rstN = true ∧ (p.cmdValid = true → opField p.cmd ≠ opReset) := by
  simp [Ports.resets]

/-- Only a resetting edge clears an error or changes the recorded one (60_exceptions.md R120, R124). -/
theorem step_keeps_errors {s t : State} {p : Ports} {rest : List Ports} (he : s.edges = p :: rest)
    (hp : p.resets = false) (h : step s = .next t) : ErrorsKept s.regs t.regs := by
  obtain ⟨hrst, hreset⟩ := p.resets_eq_false_iff.mp hp
  cases hvalid : p.cmdValid with
  | false =>
    obtain rfl := Host.Outcome.next.inj ((step_idle he hrst hvalid).symm.trans h)
    exact .refl s.regs
  | true =>
    cases hd : decode p.cmd with
    | instr i =>
      have hop : i.opcode ≠ opReset := opcode_of_decode hd ▸ hreset hvalid
      exact exec_keeps_errors (s := s.acceptEdge p rest) hop ((step_command he hrst hvalid hd).symm.trans h)
    | reserved op sel =>
      obtain rfl := Host.Outcome.next.inj ((step_reserved he hrst hvalid hd).symm.trans h)
      exact .raise .opcode op sel s.regs

/-! ### The `err` output -/

/-- `err` is the OR of bits 7:3 of the `status` output (60_exceptions.md R125). -/
theorem outputs_err (r : Regs) : r.outputs.err = decide (r.outputs.status.extractLsb' 3 5 ≠ 0#5) := by
  have hclear : r.outputs.status.extractLsb' 3 5 = 0#5 ↔ r.outputs.err = false :=
    (statusWord_errorBits_eq_zero_iff r.status).trans (anyError_eq_false_iff r.status).symm
  simp [hclear]

/-- `err` is 1 exactly if some error bit is set. -/
theorem outputs_err_iff (r : Regs) : r.outputs.err = true ↔ ∃ e : ErrKind, getFlag r.status e.flag = true := by
  show anyError r.status = true ↔ _
  simpa using (anyError_eq_false_iff r.status).not

/-- Where errors are kept, `err` stays 1: the bit that raised it is still set. -/
theorem ErrorsKept.err {r r' : Regs} (h : ErrorsKept r r') (herr : r.outputs.err = true) : r'.outputs.err = true := by
  obtain ⟨e, he⟩ := (outputs_err_iff r).mp herr
  exact (outputs_err_iff r').mpr ⟨e, h.sticky e he⟩

/-- Settles O35: the level is `outputs_err`; an edge that does not reset keeps the errors (`step_keeps_errors`), and with
them `err`. -/
theorem errOutputIsOrOfErrorBits : Obligations.ErrOutputIsOrOfErrorBits :=
  ⟨outputs_err, fun _ _ _ _ he hp h herr => (step_keeps_errors he hp h).err herr⟩

end Machine

end Sys2Proof
end

section
/-! PROOF. An edge with reset asserted (spec/70_reset_and_hazards.md R140): what the step answers there, and what the output
ports show afterwards. -/

namespace Sys2Proof.Machine

/-- With `rst_n = 0` the edge resets the block, whatever `cmd_valid` and `cmd` carry (70_reset_and_hazards.md R140). -/
theorem step_reset {s : State} {p : Ports} {rest : List Ports} (he : s.edges = p :: rest) (hrst : p.rstN = false) :
    step s = .next (s.acceptEdge p rest).resetBlock := by
  simp [step_of_edge he, clockEdge, hrst]

/-- Every output port shows zero at the reset values (10_state.md R39, 70_reset_and_hazards.md R140). -/
@[simp] theorem Regs.reset_outputs :
    Regs.reset.outputs =
      { voiceFreq := #v[0#32, 0#32, 0#32, 0#32], envTrig := false, pitchIndex := 0#3, freqValid := false,
        status := 0#32, rdData := 0#32, err := false } := rfl

/-- Settles O9: the step is `step_reset`. Its state has the registers `Regs.reset`, whose outputs are `Regs.reset_outputs`;
the ROM and the edges to come are those of the accepted edge, which a reset leaves. -/
theorem resetEdgeGivesResetState : Obligations.ResetEdgeGivesResetState := by
  intro s p rest he hrst
  refine ⟨(s.acceptEdge p rest).resetBlock, step_reset he hrst, ?rom, ?edges, ?regs, ?outputs⟩
  case rom => rw [State.resetBlock_rom, State.acceptEdge_rom]
  case edges => rw [State.resetBlock_edges, State.acceptEdge_edges]
  case regs => exact State.resetBlock_regs _
  case outputs => rw [State.resetBlock_regs, Regs.reset_outputs]

end Sys2Proof.Machine
end

section
/-! PROOF. SAMPLE in equations, one for each way it ends (spec/40_sample_step.md R78 to R83), and what a command does
to the errors: it leaves them, or raises one more (spec/60_exceptions.md R121, R123). -/

namespace Sys2Proof.Machine

/-! ### An equation for each case of SAMPLE -/

/-- The registers of a tick before its draw is looked at: steps 4 and 5 (40_sample_step.md R79, R80). -/
def countedRegs (inc : F32) (r : Regs) : Regs := { advanceRegs inc r with tickCount := r.tickCount + 1#32 }

section SampleEquations
variable {rom : Vector F32 5} {p : Ports} {sel : BitVec 4} {r : Regs}

theorem sampleRegs_rate_outside (hinit : getFlag r.status .initDone = true)
    (hinc : incAdmitted (increment p r) = false) :
    sampleRegs rom p sel r = raise .rate opSample sel (r.setFlag .tick false) := by
  simp [sampleRegs, hinit, hinc]

theorem sampleRegs_without_tick (hinit : getFlag r.status .initDone = true)
    (hinc : incAdmitted (increment p r) = true) (htick : sampleTicks (increment p r) r = false) :
    sampleRegs rom p sel r = advanceRegs (increment p r) r := by
  simp [sampleRegs, hinit, hinc, htick]

theorem sampleRegs_with_tick (hinit : getFlag r.status .initDone = true)
    (hinc : incAdmitted (increment p r) = true) (htick : sampleTicks (increment p r) r = true) :
    sampleRegs rom p sel r = tickRegs rom p sel (advanceRegs (increment p r) r) := by
  simp [sampleRegs, hinit, hinc, htick]

theorem sampleRegs_bad_draw (hinit : getFlag r.status .initDone = true) (hinc : incAdmitted (increment p r) = true)
    (htick : sampleTicks (increment p r) r = true) (hd : 4 < p.rndIdx.toNat) :
    sampleRegs rom p sel r = raise .draw opSample sel (countedRegs (increment p r) r) := by
  rw [sampleRegs_with_tick hinit hinc htick, tickRegs_bad_draw hd]
  rfl

theorem sampleRegs_valid_draw (hinit : getFlag r.status .initDone = true) (hinc : incAdmitted (increment p r) = true)
    (htick : sampleTicks (increment p r) r = true) (hd : p.rndIdx.toNat < 5) :
    sampleRegs rom p sel r =
      tickVoices rom p.freqOffset sel ⟨p.rndIdx.toNat, hd⟩ (countedRegs (increment p r) r) := by
  rw [sampleRegs_with_tick hinit hinc htick]
  exact dif_pos hd

end SampleEquations

/-- The registers that steps 7 and 8 leave but for an error: index, frequencies and FREQ_VALID (40_sample_step.md
R82). -/
def voicedRegs (rom : Vector F32 5) (o : F32) (d : Fin 5) (r : Regs) : Regs :=
  { r.setFlag .freqValid true with
    pitchIndex := BitVec.ofNat 3 d.val, voiceFreq := voiceFreqs (pitchTableAt rom d) o }

section TickVoices
variable {rom : Vector F32 5} {o : F32} {d : Fin 5} {r : Regs}

theorem tickVoices_finite (sel : BitVec 4) (h : allFinite (voiceFreqs (pitchTableAt rom d) o) = true) :
    tickVoices rom o sel d r = voicedRegs rom o d r := if_pos h

theorem tickVoices_not_finite (sel : BitVec 4) (h : allFinite (voiceFreqs (pitchTableAt rom d) o) = false) :
    tickVoices rom o sel d r = raise .freq opSample sel (voicedRegs rom o d r) := if_neg (by simp [h])

end TickVoices

/-- The finiteness check looks at all four frequencies (40_sample_step.md R83). -/
theorem allFinite_iff (v : Vector F32 4) : allFinite v = true ↔ ∀ k : Fin 4, finite32 v[k] = true := by
  simp [allFinite, Fin.forall_fin_succ, and_assoc]

section InitEquations
variable {data : F32} {r : Regs}

theorem initRegs_loadable (sel : BitVec 4) (h : rateLoadable data = true) :
    initRegs sel data r =
      { (r.setFlag .tick false).setFlag .initDone true with sampleRate := data, phase := zero32, phaseInc := zero32 } :=
  if_pos h

theorem initRegs_not_loadable (sel : BitVec 4) (h : rateLoadable data = false) :
    initRegs sel data r = raise .seq opInit sel (r.setFlag .tick false) := if_neg (by simp [h])

end InitEquations

/-! ### The errors after a command -/

/-- `q` has the error bits and the error record of `r`. -/
structure SameErrors (r q : Regs) : Prop where
  flags : ∀ e : ErrKind, getFlag q.status e.flag = getFlag r.status e.flag
  record : q.errInfo = r.errInfo

theorem SameErrors.trans {r r' r'' : Regs} (h : SameErrors r r') (h' : SameErrors r' r'') : SameErrors r r'' :=
  ⟨fun e => (h'.flags e).trans (h.flags e), h'.record.trans h.record⟩

/-- Writing a flag that is no error bit keeps them, and so does writing any other register. -/
theorem SameErrors.of_setFlag {f : Flag} (v : Bool) {r q : Regs} (hf : ∀ e : ErrKind, f ≠ e.flag)
    (hstatus : q.status = putFlag r.status f v) (hrecord : q.errInfo = r.errInfo) : SameErrors r q where
  flags e := by rw [hstatus, getFlag_putFlag, if_neg (hf e).symm]
  record := hrecord

theorem sameErrors_setTick (v : Bool) (r : Regs) : SameErrors r (r.setFlag .tick v) :=
  .of_setFlag v ErrKind.tick_ne_flag rfl rfl

theorem sameErrors_advance (inc : F32) (r : Regs) : SameErrors r (advanceRegs inc r) :=
  .of_setFlag _ ErrKind.tick_ne_flag rfl rfl

theorem sameErrors_counted (inc : F32) (r : Regs) : SameErrors r (countedRegs inc r) :=
  .of_setFlag _ ErrKind.tick_ne_flag rfl rfl

theorem sameErrors_voiced (rom : Vector F32 5) (o : F32) (d : Fin 5) (r : Regs) :
    SameErrors r (voicedRegs rom o d r) :=
  .of_setFlag true ErrKind.freqValid_ne_flag rfl rfl

/-- A command with the operation code `op` and any `sel` that answers `f sel` from `r` leaves the errors, or raises one
error among `kinds`; its `sel` matters to nothing but the record (60_exceptions.md R121, R123). -/
def RaisesAtMostOne (kinds : ErrKind → Prop) (op : BitVec 4) (r : Regs) (f : BitVec 4 → Regs) : Prop :=
  ∃ q, SameErrors r q ∧ ((∀ sel, f sel = q) ∨ ∃ e, kinds e ∧ ∀ sel, f sel = raise e op sel q)

/-- INIT raises ERR_SEQ or nothing (41_init_and_control.md R101). -/
theorem initRegs_raisesAtMostOne (data : F32) (r : Regs) :
    RaisesAtMostOne (· = .seq) opInit r (fun sel => initRegs sel data r) := by
  have htick : SameErrors r (r.setFlag .tick false) := sameErrors_setTick false r
  cases hload : rateLoadable data with
  | true =>
    refine ⟨_, htick.trans ?_, .inl fun sel => initRegs_loadable sel hload⟩
    exact .of_setFlag true ErrKind.initDone_ne_flag rfl rfl
  | false => exact ⟨_, htick, .inr ⟨.seq, rfl, fun sel => initRegs_not_loadable sel hload⟩⟩

/-- SAMPLE raises one error, never ERR_OPCODE, or nothing (40_sample_step.md R76, R78, R81, R83). -/
theorem sampleRegs_raisesAtMostOne (rom : Vector F32 5) (p : Ports) (r : Regs) :
    RaisesAtMostOne (· ≠ .opcode) opSample r (fun sel => sampleRegs rom p sel r) := by
  have htick : SameErrors r (r.setFlag .tick false) := sameErrors_setTick false r
  obtain ⟨hinit, -⟩ | ⟨hinit, hinc, -⟩ | ⟨hinit, hinc, hstill, -⟩ | ⟨hinit, hinc, hticks, hbad, -⟩ |
    ⟨hinit, hinc, hticks, hd, -⟩ := sampleRegs_cases rom p 0#4 r
  · exact ⟨_, htick, .inr ⟨.seq, by decide, fun _ => sampleRegs_before_init hinit⟩⟩
  · exact ⟨_, htick, .inr ⟨.rate, by decide, fun _ => sampleRegs_rate_outside hinit hinc⟩⟩
  · exact ⟨_, sameErrors_advance (increment p r) r, .inl fun _ => sampleRegs_without_tick hinit hinc hstill⟩
  · exact ⟨_, sameErrors_counted (increment p r) r,
      .inr ⟨.draw, by decide, fun _ => sampleRegs_bad_draw hinit hinc hticks (by omega)⟩⟩
  · have hvoiced := (sameErrors_counted (increment p r) r).trans
      (sameErrors_voiced rom p.freqOffset ⟨p.rndIdx.toNat, hd⟩ _)
    have hvalid (sel : BitVec 4) := sampleRegs_valid_draw (rom := rom) (sel := sel) hinit hinc hticks hd
    cases hfinite : allFinite (voiceFreqs (pitchTableAt rom ⟨p.rndIdx.toNat, hd⟩) p.freqOffset) with
    | true => exact ⟨_, hvoiced, .inl fun sel => (hvalid sel).trans (tickVoices_finite sel hfinite)⟩
    | false =>
      exact ⟨_, hvoiced, .inr ⟨.freq, by decide, fun sel => (hvalid sel).trans (tickVoices_not_finite sel hfinite)⟩⟩

end Sys2Proof.Machine
end

section
/-! PROOF. The register invariant (spec/10_state.md R25 to R33, spec/40_sample_step.md R85, spec/60_exceptions.md R120
to R124): it falls into what it says of the timer, of the voices and of the error record, and every step keeps each of
the three. -/

namespace Sys2Proof

/-- A word decodes to `reserved` only with an operation code from 5 up (30_encoding.md R64). -/
theorem five_le_op_of_decode_reserved {w : Cmd} {op sel : BitVec 4} (h : decode w = .reserved op sel) : 5 ≤ op.toNat := by
  unfold decode at h
  split_ifs at h with hnop hreset hinit hsample hread
  obtain ⟨rfl, -⟩ := Decoded.reserved.inj h
  have hcodes : ∀ o : BitVec 4, o ≠ opNop → o ≠ opReset → o ≠ opInit → o ≠ opSample → o ≠ opRead → 5 ≤ o.toNat := by
    decide
  exact hcodes _ hnop hreset hinit hsample hread

namespace Machine

/-! ### The error record -/

/-- What `RegsInv` says of the error bits and of ERR_INFO. -/
structure RecordInv (r : Regs) : Prop where
  code_known : r.errInfo.code.toNat ≤ 5
  recorded_iff_error : r.errInfo.code = 0#3 ↔ faulted r = false
  recorded_is_sticky : ∀ e : ErrKind, r.errInfo.code = e.code → getFlag r.status e.flag = true
  clean_record : r.errInfo.code = 0#3 → errInfoWord r.errInfo = 0#32
  first_op : opMatchesCode r.errInfo

theorem faulted_eq_false_iff (r : Regs) : faulted r = false ↔ ∀ e : ErrKind, getFlag r.status e.flag = false :=
  anyError_eq_false_iff r.status

theorem RecordInv.congr {r q : Regs} (h : RecordInv r) (hq : SameErrors r q) : RecordInv q := by
  obtain ⟨hflags, hrecord⟩ := hq
  have hfaulted : faulted q = false ↔ faulted r = false := by simp only [faulted_eq_false_iff, hflags]
  exact {
    code_known := hrecord ▸ h.code_known
    recorded_iff_error := by rw [hrecord, hfaulted, h.recorded_iff_error]
    recorded_is_sticky := fun e he => (hflags e).trans (h.recorded_is_sticky e (hrecord ▸ he))
    clean_record := hrecord ▸ h.clean_record
    first_op := hrecord ▸ h.first_op }

theorem raise_faulted (e : ErrKind) (op sel : BitVec 4) (r : Regs) : faulted (raise e op sel r) = true :=
  anyError_raise e r.status

theorem ErrKind.code_le_five (e : ErrKind) : e.code.toNat ≤ 5 := by
  cases e <;> decide

/-- Raising an error keeps it where the command can raise that error: the first one is recorded, a later one is not
(60_exceptions.md R123). -/
theorem RecordInv.raise {r : Regs} (h : RecordInv r) {e : ErrKind} {op sel : BitVec 4}
    (hop : opMatchesCode { code := e.code, op := op, sel := sel }) : RecordInv (raise e op sel r) := by
  have hrecorded : (Machine.raise e op sel r).errInfo.code ≠ 0#3 := recordFirst_code_ne_zero e op sel r.errInfo
  have hfaulted : faulted (Machine.raise e op sel r) ≠ false := by simp [raise_faulted]
  have hkept := ErrorsKept.raise e op sel r
  by_cases hfirst : r.errInfo.code = 0#3
  · have hrecord : (Machine.raise e op sel r).errInfo = { code := e.code, op := op, sel := sel } :=
      recordFirst_of_clean hfirst
    exact {
      code_known := hrecord ▸ e.code_le_five
      recorded_iff_error := iff_of_false hrecorded hfaulted
      recorded_is_sticky := fun e' he' => by
        rw [hrecord] at he'
        obtain rfl := ErrKind.code_injective he'
        simp
      clean_record := fun hclean => absurd hclean hrecorded
      first_op := hrecord ▸ hop }
  · have hrecord : (Machine.raise e op sel r).errInfo = r.errInfo := recordFirst_of_recorded hfirst
    exact {
      code_known := hrecord ▸ h.code_known
      recorded_iff_error := iff_of_false hrecorded hfaulted
      recorded_is_sticky := fun e' he' => hkept.sticky e' (h.recorded_is_sticky e' (hrecord ▸ he'))
      clean_record := fun hclean => absurd hclean hrecorded
      first_op := hrecord ▸ h.first_op }

/-- A command whose errors have its own operation code keeps the record's invariant. -/
theorem RaisesAtMostOne.recordInv {kinds : ErrKind → Prop} {op : BitVec 4} {r : Regs} {f : BitVec 4 → Regs}
    (hf : RaisesAtMostOne kinds op r f) (h : RecordInv r)
    (hop : ∀ e sel, kinds e → opMatchesCode { code := e.code, op := op, sel := sel }) (sel : BitVec 4) :
    RecordInv (f sel) := by
  obtain ⟨q, hq, hquiet | ⟨e, he, hraise⟩⟩ := hf
  · exact hquiet sel ▸ h.congr hq
  · exact hraise sel ▸ (h.congr hq).raise (hop e sel he)

/-- SAMPLE can raise every error but ERR_OPCODE (60_exceptions.md R121). -/
theorem opMatchesCode_sample (e : ErrKind) (sel : BitVec 4) (he : e ≠ .opcode) :
    opMatchesCode { code := e.code, op := opSample, sel := sel } := by
  cases e with
  | opcode => exact absurd rfl he
  | rate | draw | seq | freq => simp [opMatchesCode, ErrKind.code]

theorem opMatchesCode_init (e : ErrKind) (sel : BitVec 4) (he : e = .seq) :
    opMatchesCode { code := e.code, op := opInit, sel := sel } := by
  subst he
  simp [opMatchesCode, ErrKind.code]

theorem opMatchesCode_reserved {op sel : BitVec 4} (hop : 5 ≤ op.toNat) :
    opMatchesCode { code := ErrKind.opcode.code, op := op, sel := sel } := by
  simp [opMatchesCode, ErrKind.code, hop]

/-! ### The timer -/

/-- What `RegsInv` says of SAMPLE_RATE, PHASE and PHASE_INC, and of the time before INIT. -/
structure TimerInv (r : Regs) : Prop where
  rate_positive : getFlag r.status .initDone = true → rateLoadable r.sampleRate = true
  phase_in_unit : PhaseInUnit r.phase
  inc_admitted : incAdmitted r.phaseInc = true
  before_init : getFlag r.status .initDone = false →
    r.sampleRate = zero32 ∧ r.phase = zero32 ∧ r.phaseInc = zero32 ∧ r.tickCount = 0#32 ∧
      getFlag r.status .tick = false ∧ getFlag r.status .freqValid = false ∧
      getFlag r.status .errRate = false ∧ getFlag r.status .errDraw = false

/-- The increment `+0.0` that reset and INIT write is admitted. -/
theorem incAdmitted_zero32 : incAdmitted zero32 = true := by decide

theorem TimerInv.initRegs {r : Regs} (h : TimerInv r) (sel : BitVec 4) (data : F32) :
    TimerInv (initRegs sel data r) := by
  cases hload : rateLoadable data with
  | true =>
    rw [initRegs_loadable sel hload]
    exact ⟨fun _ => hload, zero32_phaseInUnit, incAdmitted_zero32, fun hbefore => by simp at hbefore⟩
  | false =>
    rw [initRegs_not_loadable sel hload]
    refine ⟨fun hdone => h.rate_positive (by simpa [ErrKind.flag] using hdone), h.phase_in_unit, h.inc_admitted,
      fun hbefore => ?_⟩
    obtain ⟨hrate, hphase, hinc, hcount, -, hvalid, herrRate, herrDraw⟩ :=
      h.before_init (by simpa [ErrKind.flag] using hbefore)
    simp [ErrKind.flag, hrate, hphase, hinc, hcount, hvalid, herrRate, herrDraw]

/-- No step of a SAMPLE writes INIT_DONE (10_state.md R24). -/
@[simp] theorem sampleRegs_initDone (rom : Vector F32 5) (p : Ports) (sel : BitVec 4) (r : Regs) :
    getFlag (sampleRegs rom p sel r).status .initDone = getFlag r.status .initDone := by
  obtain ⟨-, hseq⟩ | ⟨-, -, hrate⟩ | ⟨-, -, -, hadvance⟩ | ⟨-, -, -, -, hdraw⟩ | ⟨-, -, -, _, hvoices⟩ :=
    sampleRegs_cases rom p sel r
  · simp [hseq, ErrKind.flag]
  · simp [hrate, ErrKind.flag]
  · simp [hadvance]
  · simp [hdraw, ErrKind.flag]
  · rw [hvoices]
    simp only [tickVoices]
    split <;> simp [ErrKind.flag]

/-- A SAMPLE writes an admitted increment to PHASE_INC and leaves it otherwise (40_sample_step.md R78). -/
theorem sampleRegs_phaseInc (rom : Vector F32 5) (p : Ports) (sel : BitVec 4) (r : Regs) :
    (sampleRegs rom p sel r).phaseInc =
      if getFlag r.status .initDone = true ∧ incAdmitted (increment p r) = true then increment p r else r.phaseInc := by
  obtain ⟨hinit, hseq⟩ | ⟨-, hinc, hrate⟩ | ⟨hinit, hinc, -, hadvance⟩ | ⟨hinit, hinc, -, -, hdraw⟩ |
    ⟨hinit, hinc, -, hd, hvoices⟩ := sampleRegs_cases rom p sel r
  · simp [hseq, hinit]
  · simp [hrate, hinc]
  · simp [hadvance, hinit, hinc]
  · simp [hdraw, hinit, hinc]
  · obtain ⟨-, -, hphaseInc, -⟩ := tickVoices_frame rom p.freqOffset sel ⟨p.rndIdx.toNat, hd⟩
      { advanceRegs (increment p r) r with tickCount := r.tickCount + 1#32 }
    rw [if_pos ⟨hinit, hinc⟩, hvoices, hphaseInc, advanceRegs_phaseInc]

theorem TimerInv.sampleRegs {r : Regs} (h : TimerInv r) (rom : Vector F32 5) (p : Ports) (sel : BitVec 4) :
    TimerInv (sampleRegs rom p sel r) where
  rate_positive hdone := by
    obtain ⟨hrate, -⟩ := sampleRegs_frame rom p sel r
    exact hrate ▸ h.rate_positive (sampleRegs_initDone rom p sel r ▸ hdone)
  phase_in_unit := by
    obtain hheld | ⟨hinc, hadvanced⟩ := sampleRegs_phase_cases rom p sel r
    · exact hheld ▸ h.phase_in_unit
    · exact hadvanced ▸ wrappedPhase_inUnit h.phase_in_unit hinc
  inc_admitted := by
    rw [sampleRegs_phaseInc]
    split_ifs with hwritten
    · exact hwritten.2
    · exact h.inc_admitted
  before_init hbefore := by
    rw [sampleRegs_initDone] at hbefore
    obtain ⟨hrate, hphase, hinc, hcount, -, hvalid, herrRate, herrDraw⟩ := h.before_init hbefore
    rw [sampleRegs_before_init hbefore]
    simp [ErrKind.flag, hrate, hphase, hinc, hcount, hvalid, herrRate, herrDraw]

/-- ERR_OPCODE leaves the timer (30_encoding.md R64). -/
theorem TimerInv.raise_opcode {r : Regs} (h : TimerInv r) (op sel : BitVec 4) : TimerInv (raise .opcode op sel r) where
  rate_positive hdone := h.rate_positive (by simpa [ErrKind.flag] using hdone)
  phase_in_unit := h.phase_in_unit
  inc_admitted := h.inc_admitted
  before_init hbefore := by
    simpa [ErrKind.flag] using h.before_init (by simpa [ErrKind.flag] using hbefore)

/-! ### The voices -/

/-- What `RegsInv` says of the pitch and the voices. -/
structure VoiceInv (r : Regs) : Prop where
  pitch_in_table : r.pitchIndex.toNat ≤ 4
  before_voice : getFlag r.status .freqValid = false →
    r.pitchIndex = 0#3 ∧ (∀ k : Fin 4, r.voiceFreq[k] = zero32) ∧ getFlag r.status .errFreq = false
  voices_finite : getFlag r.status .errFreq = false → ∀ k : Fin 4, finite32 r.voiceFreq[k] = true

theorem VoiceInv.congr {r q : Regs} (h : VoiceInv r) (hpitch : q.pitchIndex = r.pitchIndex)
    (hvoice : q.voiceFreq = r.voiceFreq) (hvalid : getFlag q.status .freqValid = getFlag r.status .freqValid)
    (herr : getFlag q.status .errFreq = getFlag r.status .errFreq) : VoiceInv q where
  pitch_in_table := hpitch ▸ h.pitch_in_table
  before_voice hbefore := by
    rw [hpitch, hvoice, herr]
    exact h.before_voice (hvalid ▸ hbefore)
  voices_finite hclear := hvoice ▸ h.voices_finite (herr ▸ hclear)

theorem VoiceInv.initRegs {r : Regs} (h : VoiceInv r) (sel : BitVec 4) (data : F32) :
    VoiceInv (initRegs sel data r) := by
  cases hload : rateLoadable data with
  | true =>
    rw [initRegs_loadable sel hload]
    exact h.congr rfl rfl (by simp) (by simp)
  | false =>
    rw [initRegs_not_loadable sel hload]
    exact h.congr rfl rfl (by simp [ErrKind.flag]) (by simp [ErrKind.flag])

/-- Whatever stood before, a tick with a valid draw ends with FREQ_VALID set, and with ERR_FREQ set unless the four
frequencies are finite (40_sample_step.md R82, R83). -/
theorem tickVoices_voiceInv (rom : Vector F32 5) (o : F32) (sel : BitVec 4) (d : Fin 5) (r : Regs) :
    VoiceInv (tickVoices rom o sel d r) := by
  have hpitch : (BitVec.ofNat 3 d.val).toNat ≤ 4 := by
    rw [BitVec.toNat_ofNat]
    omega
  cases hfinite : allFinite (voiceFreqs (pitchTableAt rom d) o) with
  | true =>
    rw [tickVoices_finite sel hfinite]
    exact ⟨hpitch, fun hbefore => by simp [voicedRegs] at hbefore, fun _ => (allFinite_iff _).mp hfinite⟩
  | false =>
    rw [tickVoices_not_finite sel hfinite]
    exact ⟨hpitch, fun hbefore => by simp [voicedRegs, ErrKind.flag] at hbefore,
      fun hclear => by simp [ErrKind.flag] at hclear⟩

theorem VoiceInv.sampleRegs {r : Regs} (h : VoiceInv r) (rom : Vector F32 5) (p : Ports) (sel : BitVec 4) :
    VoiceInv (sampleRegs rom p sel r) := by
  obtain ⟨-, hseq⟩ | ⟨-, -, hrate⟩ | ⟨-, -, -, hadvance⟩ | ⟨-, -, -, -, hdraw⟩ | ⟨-, -, -, _, hvoices⟩ :=
    sampleRegs_cases rom p sel r
  · exact hseq ▸ h.congr rfl rfl (by simp [ErrKind.flag]) (by simp [ErrKind.flag])
  · exact hrate ▸ h.congr rfl rfl (by simp [ErrKind.flag]) (by simp [ErrKind.flag])
  · exact hadvance ▸ h.congr rfl rfl (by simp) (by simp)
  · exact hdraw ▸ h.congr rfl rfl (by simp [ErrKind.flag]) (by simp [ErrKind.flag])
  · exact hvoices ▸ tickVoices_voiceInv rom p.freqOffset sel _ _

/-! ### The invariant -/

theorem rateLoadable_iff_finite_and_pos (sr : F32) :
    rateLoadable sr = true ↔ finite32 sr = true ∧ lt32 zero32 sr = true := by simp [rateLoadable]

theorem regsInv_iff (r : Regs) : RegsInv r ↔ TimerInv r ∧ VoiceInv r ∧ RecordInv r := by
  have hrate := rateLoadable_iff_finite_and_pos r.sampleRate
  constructor
  · intro h
    exact ⟨⟨fun hdone => hrate.mpr (h.rate_positive hdone), h.phase_in_unit, h.inc_admitted, h.before_init⟩,
      ⟨h.pitch_in_table, h.before_voice, h.voices_finite⟩,
      ⟨h.code_known, h.recorded_iff_error, h.recorded_is_sticky, h.clean_record, h.first_op⟩⟩
  · rintro ⟨ht, hv, he⟩
    exact {
      rate_positive := fun hdone => hrate.mp (ht.rate_positive hdone)
      phase_in_unit := ht.phase_in_unit
      inc_admitted := ht.inc_admitted
      pitch_in_table := hv.pitch_in_table
      code_known := he.code_known
      recorded_iff_error := he.recorded_iff_error
      recorded_is_sticky := he.recorded_is_sticky
      clean_record := he.clean_record
      first_op := he.first_op
      before_init := ht.before_init
      before_voice := hv.before_voice
      voices_finite := hv.voices_finite }

theorem RegsInv.initRegs {r : Regs} (h : RegsInv r) (sel : BitVec 4) (data : F32) : RegsInv (initRegs sel data r) := by
  obtain ⟨ht, hv, he⟩ := (regsInv_iff r).mp h
  exact (regsInv_iff _).mpr ⟨ht.initRegs sel data, hv.initRegs sel data,
    (initRegs_raisesAtMostOne data r).recordInv he opMatchesCode_init sel⟩

theorem RegsInv.sampleRegs {r : Regs} (h : RegsInv r) (rom : Vector F32 5) (p : Ports) (sel : BitVec 4) :
    RegsInv (sampleRegs rom p sel r) := by
  obtain ⟨ht, hv, he⟩ := (regsInv_iff r).mp h
  exact (regsInv_iff _).mpr ⟨ht.sampleRegs rom p sel, hv.sampleRegs rom p sel,
    (sampleRegs_raisesAtMostOne rom p r).recordInv he opMatchesCode_sample sel⟩

theorem RegsInv.raise_opcode {r : Regs} (h : RegsInv r) {op : BitVec 4} (hop : 5 ≤ op.toNat) (sel : BitVec 4) :
    RegsInv (raise .opcode op sel r) := by
  obtain ⟨ht, hv, he⟩ := (regsInv_iff r).mp h
  exact (regsInv_iff _).mpr ⟨ht.raise_opcode op sel,
    hv.congr rfl rfl (by simp [ErrKind.flag]) (by simp [ErrKind.flag]), he.raise (opMatchesCode_reserved hop)⟩

/-- RD_DATA does not enter the invariant. -/
theorem RegsInv.with_rdData {r : Regs} (h : RegsInv r) (v : Word32) : RegsInv { r with rdData := v } := by
  obtain ⟨ht, hv, he⟩ := (regsInv_iff r).mp h
  exact (regsInv_iff _).mpr ⟨⟨ht.rate_positive, ht.phase_in_unit, ht.inc_admitted, ht.before_init⟩,
    hv.congr rfl rfl rfl rfl, he.congr ⟨fun _ => rfl, rfl⟩⟩

/-- Settles O43: at reset every register and every flag is zero. -/
theorem invariantHoldsAtReset : Obligations.InvariantHoldsAtReset := by
  have timer : TimerInv Regs.reset :=
    ⟨fun hdone => by simp at hdone, zero32_phaseInUnit, incAdmitted_zero32, fun _ => by simp [zero32]⟩
  have voice : VoiceInv Regs.reset := ⟨by decide, fun _ => by decide, fun _ => by decide⟩
  have record : RecordInv Regs.reset :=
    ⟨by decide, by decide, fun e he => absurd he.symm e.code_ne_zero, fun _ => by decide, by simp [opMatchesCode]⟩
  exact (regsInv_iff _).mpr ⟨timer, voice, record⟩

theorem exec_keeps_regsInv {i : Instr} {s t : State} (hs : RegsInv s.regs) (h : exec i s = .next t) :
    RegsInv t.regs := by
  cases i with
  | nop sel data =>
    obtain rfl := Host.Outcome.next.inj (exec_nop sel data s ▸ h)
    exact hs
  | reset sel data =>
    obtain rfl := Host.Outcome.next.inj (exec_reset sel data s ▸ h)
    exact invariantHoldsAtReset
  | init sel data =>
    obtain rfl := Host.Outcome.next.inj (exec_init sel data s ▸ h)
    exact hs.initRegs sel data
  | sample sel data =>
    obtain rfl := Host.Outcome.next.inj (exec_sample sel data s ▸ h)
    exact hs.sampleRegs s.rom s.ports sel
  | read sel data =>
    obtain rfl := Host.Outcome.next.inj (exec_read sel data s ▸ h)
    exact hs.with_rdData _

/-- Settles O44, by cases on what the edge does: a reset is O43, an idle edge changes no register, a command is
`exec_keeps_regsInv`, and a reserved word raises ERR_OPCODE. -/
theorem stepKeepsInvariant : Obligations.StepKeepsInvariant := by
  intro s t hs h
  obtain ⟨-, rfl⟩ | ⟨p, rest, -, ⟨-, rfl⟩ | ⟨-, -, rfl⟩ | ⟨-, -, i, -, hexec⟩ | ⟨-, -, op, sel, hd, rfl⟩⟩ :=
    step_next_cases h
  · exact hs
  · exact invariantHoldsAtReset
  · exact hs
  · exact exec_keeps_regsInv (s := s.acceptEdge p rest) hs hexec
  · exact hs.raise_opcode (five_le_op_of_decode_reserved hd) sel

/-! ### Runs -/

theorem exec_completes (i : Instr) (s : State) : ∃ t, exec i s = .next t :=
  match i with
  | .nop sel data => ⟨_, exec_nop sel data s⟩
  | .reset sel data => ⟨_, exec_reset sel data s⟩
  | .init sel data => ⟨_, exec_init sel data s⟩
  | .sample sel data => ⟨_, exec_sample sel data s⟩
  | .read sel data => ⟨_, exec_read sel data s⟩

/-- Settles O10, by cases on the coming edge: no command faults (`exec_completes`), nor does any other edge. -/
theorem everyStepCompletes : Obligations.EveryStepCompletes := by
  intro s
  cases he : s.edges with
  | nil => exact ⟨s, by simp only [step, nextEdge, he]⟩
  | cons p rest =>
    cases hrst : p.rstN with
    | false => exact ⟨_, step_reset he hrst⟩
    | true =>
      cases hvalid : p.cmdValid with
      | false => exact ⟨_, step_idle he hrst hvalid⟩
      | true =>
        cases hd : decode p.cmd with
        | instr i => exact step_command he hrst hvalid hd ▸ exec_completes i (s.acceptEdge p rest)
        | reserved op sel => exact ⟨_, step_reserved he hrst hvalid hd⟩

/-- A run of one more step is a step and then the run. -/
theorem run_succ_of_step {s t : State} (k : Nat) (h : step s = .next t) : core.run (k + 1) s = core.run k t := by
  have hstep : core.step s = .next t := h
  simp only [Host.Core.run, hstep]

/-- A run that ends in a next state made its first step. -/
theorem run_succ_next {s t : State} {k : Nat} (h : core.run (k + 1) s = .next t) :
    ∃ u, step s = .next u ∧ core.run k u = .next t := by
  obtain ⟨u, hu⟩ := everyStepCompletes s
  exact ⟨u, hu, run_succ_of_step k hu ▸ h⟩

/-- What every step keeps, every run keeps. -/
theorem run_keeps {P : State → Prop} (hstep : ∀ s t, P s → step s = .next t → P t) (k : Nat) :
    ∀ {s t : State}, P s → core.run k s = .next t → P t := by
  induction k with
  | zero =>
    intro s t hs h
    exact Host.Outcome.next.inj h ▸ hs
  | succ k ih =>
    intro s t hs h
    obtain ⟨u, hu, hrun⟩ := run_succ_next h
    exact ih (hstep s u hs hu) hrun

/-- An edge that resets the block leaves the reset values (60_exceptions.md R120, 70_reset_and_hazards.md R140). -/
theorem step_of_resets {s : State} {p : Ports} {rest : List Ports} (he : s.edges = p :: rest)
    (hp : p.resets = true) : step s = .next (s.acceptEdge p rest).resetBlock := by
  cases hrst : p.rstN with
  | false => exact step_reset he hrst
  | true =>
    obtain ⟨hvalid, hop⟩ : p.cmdValid = true ∧ opField p.cmd = opReset := by simpa [Ports.resets, hrst] using hp
    rw [step_command he hrst hvalid (decode_of_op_reset hop), exec_reset]

/-- Settles O45: the resetting edge gives the reset values (O43), and O44 carries the invariant along the run. -/
theorem invariantHoldsOnceResetIsApplied : Obligations.InvariantHoldsOnceResetIsApplied := by
  intro s t p rest k he hp h
  rw [run_succ_of_step k (step_of_resets he hp)] at h
  have hreset : RegsInv (s.acceptEdge p rest).resetBlock.regs := invariantHoldsAtReset
  exact run_keeps (P := fun s => RegsInv s.regs) stepKeepsInvariant k hreset h

end Machine

end Sys2Proof
end

section
/-! PROOF. The encoding (spec/30_encoding.md R61 to R69): a word is its three fields, so decoding and encoding agree
both ways, and what the assembler writes is decoded to what it stands for. -/

namespace Sys2Proof

/-! ### The word and its fields -/

/-- A packed word is the bitwise OR of its fields in their places (30_encoding.md R61). -/
theorem packCmd_eq_or (op sel : BitVec 4) (data : BitVec 32) :
    packCmd op sel data = op.setWidth 40 <<< 36 ||| sel.setWidth 40 <<< 32 ||| data.setWidth 40 := by
  apply BitVec.eq_of_getLsbD_eq
  intro i hi
  simp only [packCmd_bit, BitVec.getLsbD_or, BitVec.getLsbD_shiftLeft, BitVec.getLsbD_setWidth, hi, decide_true,
    Bool.true_and]
  split_ifs with hdata hsel
  · simp [hdata, show i < 36 by omega]
  · have hzero : data.getLsbD i = false := BitVec.getLsbD_of_ge data i (by omega)
    simp [hdata, hzero, show i < 36 by omega, show i - 32 < 40 by omega]
  · have hzero : data.getLsbD i = false := BitVec.getLsbD_of_ge data i (by omega)
    have hzero' : sel.getLsbD (i - 32) = false := BitVec.getLsbD_of_ge sel (i - 32) (by omega)
    simp [hzero, hzero', show ¬i < 36 by omega, show i - 36 < 40 by omega, show i - 32 - 4 = i - 36 by omega]

/-- The fields of a word make up the word (30_encoding.md R61). -/
theorem packCmd_fields (w : Cmd) : packCmd (opField w) (selField w) (dataField w) = w := by
  apply BitVec.eq_of_getLsbD_eq
  intro i hi
  rw [packCmd_bit]
  split_ifs with hdata hsel
  · simp [dataField, hdata]
  · simp [selField, hsel, show 32 + (i - 32) = i by omega]
  · simp [opField, show i - 32 - 4 < 4 by omega, show 36 + (i - 32 - 4) = i by omega]

/-- A command's operands are those of any word that decodes to it (30_encoding.md R65). -/
theorem operands_of_decode {w : Cmd} {i : Instr} (h : decode w = .instr i) :
    i.sel = selField w ∧ i.data = dataField w := by
  unfold decode at h
  split_ifs at h <;> obtain rfl := Decoded.instr.inj h <;> exact ⟨rfl, rfl⟩

theorem encode_of_decode {w : Cmd} {i : Instr} (h : decode w = .instr i) : encode i = w := by
  obtain ⟨hsel, hdata⟩ := operands_of_decode h
  rw [encode, opcode_of_decode h, hsel, hdata, packCmd_fields]

/-- Settles O1: `decode_encode` one way and `encode_of_decode` the other. -/
theorem decodeEncodeRoundTrip : Obligations.DecodeEncodeRoundTrip := ⟨decode_encode, fun _ _ => encode_of_decode⟩

/-! ### The word selects the command -/

theorem decode_of_op_init {w : Cmd} (h : opField w = opInit) : decode w = .instr (.init (selField w) (dataField w)) := by
  have op_ne {op : BitVec 4} (hop : opInit ≠ op) : opField w ≠ op := h ▸ hop
  rw [decode, if_neg (op_ne (by decide)), if_neg (op_ne (by decide)), if_pos h]

theorem decode_of_op_sample {w : Cmd} (h : opField w = opSample) :
    decode w = .instr (.sample (selField w) (dataField w)) := by
  have op_ne {op : BitVec 4} (hop : opSample ≠ op) : opField w ≠ op := h ▸ hop
  rw [decode, if_neg (op_ne (by decide)), if_neg (op_ne (by decide)), if_neg (op_ne (by decide)), if_pos h]

/-- `op` is the word over `2^36` (30_encoding.md R61). -/
theorem opField_toNat (w : Cmd) : (opField w).toNat = w.toNat / 2 ^ 36 := by
  have hw : w.toNat < 2 ^ 40 := w.isLt
  rw [opField, BitVec.extractLsb'_toNat, Nat.shiftRight_eq_div_pow]
  exact Nat.mod_eq_of_lt (by omega)

/-- Settles O2: masking keeps `op`, which the decoder reads alone; from `0x5000000000` up `op` is at least 5. -/
theorem decodeSelectsByOpcodeAlone : Obligations.DecodeSelectsByOpcodeAlone := by
  intro w
  have op_of_masked {v : Cmd} (h : w &&& 0xF000000000#40 = v) : opField w = opField v := by rw [← h, opField_masked]
  refine ⟨fun h => decode_of_op_nop (op_of_masked h), fun h => decode_of_op_reset (op_of_masked h),
    fun h => decode_of_op_init (op_of_masked h), fun h => decode_of_op_sample (op_of_masked h),
    fun h => decode_of_op_read (op_of_masked h), fun h => decode_of_five_le_op ?_⟩
  rw [opField_toNat]
  omega

/-! ### The assembler's words -/

theorem encode_reset_zero : encode (.reset 0 0) = 0x1000000000#40 := by decide
theorem encode_sample_zero : encode (.sample 0 0) = 0x3000000000#40 := by decide

/-- INIT's word carries the rate in bits 31:0 (30_encoding.md R67). -/
theorem encode_init_zero (data : BitVec 32) : encode (.init 0 data) = 0x2000000000#40 ||| data.setWidth 40 :=
  packCmd_eq_or opInit 0 data

/-- READ's word carries the register number in bits 35:32 (30_encoding.md R67). -/
theorem encode_read_zero (sel : BitVec 4) : encode (.read sel 0) = 0x4000000000#40 ||| sel.setWidth 40 <<< 32 :=
  (packCmd_eq_or opRead sel 0).trans BitVec.or_zero

namespace Machine

theorem assemble_wellFormed {a : Asm} (h : a.wellFormed = true) : assemble a = some ((expandAsm a).map encode) :=
  if_pos h

theorem assemble_init {rate : RateLit} (h : rate.wellFormed = true) :
    assemble (.init rate) = some [0x2000000000#40 ||| (rateBits rate).setWidth 40] := by
  rw [assemble_wellFormed (a := .init rate) h, ← encode_init_zero]
  rfl

theorem assemble_setup {rate : RateLit} (h : rate.wellFormed = true) :
    assemble (.setup rate) = some [0x1000000000#40, 0x2000000000#40 ||| (rateBits rate).setWidth 40] := by
  rw [assemble_wellFormed (a := .setup rate) h, ← encode_init_zero, ← encode_reset_zero]
  rfl

theorem assemble_read {reg : RegRef} (h : reg.wellFormed = true) :
    assemble (.read reg) = some [0x4000000000#40 ||| (regRefNumber reg).setWidth 40 <<< 32] := by
  rw [assemble_wellFormed (a := .read reg) h, ← encode_read_zero]
  rfl

/-- The bits of a hex rate that fits stand in the word as they are. -/
theorem setWidth_rateBits_hex {bits : Nat} (h : bits < 2 ^ 32) :
    (rateBits (.hex bits)).setWidth 40 = BitVec.ofNat 40 bits :=
  BitVec.setWidth_ofNat_of_le_of_lt (by decide) h

/-- An operand-free command is written with zeros, and so is each field that INIT and READ do not use (30_encoding.md
R67). -/
theorem expandAsm_canonical (a : Asm) : ∀ i ∈ expandAsm a, i.canonical = true := by
  cases a with
  | block n =>
    intro i hi
    obtain rfl := List.eq_of_mem_replicate hi
    rfl
  | _ => simp [expandAsm, Instr.canonical]

/-- Settles O4: an assembled statement is the encoded words of its commands, which decode back by `decode_encode`; the
rows of R67 are the words of `encode`. -/
theorem assembledWordsDecodeBack : Obligations.AssembledWordsDecodeBack := by
  refine ⟨?back, by decide, by decide, by decide, ?hex, ?number, ?name⟩
  case back =>
    intro a ws h
    obtain ⟨-, hwords⟩ := Option.ite_none_right_eq_some.mp h
    obtain rfl := Option.some.inj hwords
    refine ⟨?_, expandAsm_canonical a⟩
    rw [List.map_map]
    exact List.map_congr_left fun i _ => decode_encode i
  case hex =>
    intro bits h
    rw [assemble_init (rate := .hex bits) (decide_eq_true h), setWidth_rateBits_hex h]
  case number =>
    intro n h
    rw [assemble_read (reg := .number n) (decide_eq_true h), regRefNumber, BitVec.setWidth_ofNat_of_le_of_lt (by decide) h]
  case name =>
    intro r n hn
    obtain rfl : n = r.number.toNat := by cases r <;> simpa [RegName.number] using hn
    rw [assemble_read rfl, regRefNumber, BitVec.ofNat_toNat]

/-- Settles O5: BLOCK is `n` times SAMPLE's word, and SETUP RESET's word and INIT's. -/
theorem pseudoInstructionsExpand : Obligations.PseudoInstructionsExpand := by
  refine ⟨fun n hn => ?_, fun bits h => ?_⟩
  · rw [assemble_wellFormed (a := .block n) (decide_eq_true hn), expandAsm, List.map_replicate, encode_sample_zero]
  · rw [assemble_setup (rate := .hex bits) (decide_eq_true h), setWidth_rateBits_hex h]

/-! ### A presented command -/

/-- A 40-bit word passes through the table's number unchanged. -/
theorem tableWord_toNat (w : Cmd) : tableWord 40 w.toNat = w := by
  rw [tableWord, Nat.mod_eq_of_lt w.isLt, BitVec.ofNat_toNat, BitVec.setWidth_eq]

/-- Settles O7: the presented edge accepts the command's own word, which decodes to the command. -/
theorem presentedCommandRunsNext : Obligations.PresentedCommandRunsNext := by
  intro s i
  have runs {p : Ports} {rest : List Ports} (he : (presentCommand s (encode i)).edges = p.presenting (encode i) :: rest) :
      step (s.withFetchWord 40 (encode i).toNat) =
        exec i ((presentCommand s (encode i)).acceptEdge (p.presenting (encode i)) rest) := by
    rw [State.withFetchWord, tableWord_toNat]
    exact step_command he rfl rfl (decode_encode i)
  obtain ⟨regs, rom, ports, edges⟩ := s
  constructor
  · rintro rfl
    exact runs rfl
  · rintro p rest rfl
    exact runs rfl

end Machine

end Sys2Proof
end

section
/-! PROOF. What an edge does by the command it accepts (spec/30_encoding.md R60), and what follows for the ROM, for a
READ after another edge, for the errors and for `env_trig`. -/

namespace Sys2Proof.Machine

/-! ### The step by the accepted command -/

theorem Ports.accepted_eq_some_iff (p : Ports) (d : Decoded) :
    p.accepted = some d ↔ (p.rstN = true ∧ p.cmdValid = true) ∧ decode p.cmd = d := by
  simp [Ports.accepted]

section Accepted
variable {s : State} {p : Ports} {rest : List Ports} (he : s.edges = p :: rest)
include he

theorem step_accepted_instr {i : Instr} (h : p.accepted = some (.instr i)) : step s = exec i (s.acceptEdge p rest) := by
  obtain ⟨⟨hrst, hvalid⟩, hd⟩ := (p.accepted_eq_some_iff _).mp h
  exact step_command he hrst hvalid hd

theorem step_accepted_reserved {op sel : BitVec 4} (h : p.accepted = some (.reserved op sel)) :
    step s = .next ((s.acceptEdge p rest).withRegs (raise .opcode op sel s.regs)) := by
  obtain ⟨⟨hrst, hvalid⟩, hd⟩ := (p.accepted_eq_some_iff _).mp h
  exact step_reserved he hrst hvalid hd

/-- An edge that accepts nothing is idle or resets the block. -/
theorem step_accepted_none (h : p.accepted = none) :
    step s = .next (if p.rstN then s.acceptEdge p rest else (s.acceptEdge p rest).resetBlock) := by
  cases hrst : p.rstN with
  | false => exact step_reset he hrst
  | true => exact step_idle he hrst (by simpa [Ports.accepted, hrst] using h)

end Accepted

/-! ### The ROM and the coming edges -/

/-- A command leaves the ROM, the ports and the coming edges. -/
theorem exec_frame {i : Instr} {s t : State} (h : exec i s = .next t) :
    t.rom = s.rom ∧ t.ports = s.ports ∧ t.edges = s.edges := by
  rw [exec_next_withRegs h]
  exact ⟨rfl, rfl, rfl⟩

/-- A step leaves the ROM and takes the oldest coming edge off (10_state.md R32). -/
theorem step_frame {s t : State} (h : step s = .next t) : t.rom = s.rom ∧ t.edges = s.edges.tail := by
  obtain ⟨he, rfl⟩ | ⟨p, rest, he, ⟨-, rfl⟩ | ⟨-, -, rfl⟩ | ⟨-, -, i, -, hexec⟩ | ⟨-, -, op, sel, -, rfl⟩⟩ :=
    step_next_cases h
  · exact ⟨rfl, by simp [he]⟩
  · simp [he]
  · simp [he]
  · obtain ⟨hrom, -, hedges⟩ := exec_frame hexec
    simp [hrom, hedges, he]
  · simp [he]

/-- The Pitch Table's entries are registers 10 to 14 (10_state.md R23, R32). -/
theorem reg32_pitchTable (rom : Vector F32 5) (r : Regs) (i : Fin 5) :
    reg32 rom r (BitVec.ofNat 4 (10 + i.val)) = rom[i] :=
  match i with
  | 0 | 1 | 2 | 3 | 4 => rfl

/-- Settles O11: `step_frame`, and `reg32_pitchTable` for READ. -/
theorem stepKeepsPitchTable : Obligations.StepKeepsPitchTable :=
  ⟨rfl, fun _ _ h => (step_frame h).1, reg32_pitchTable⟩

/-! ### A READ after another edge -/

/-- Settles O18: the second edge is the READ, on the registers that the first one left; it writes RD_DATA only, which
no `sel` reads. -/
theorem readReturnsTheEarlierEdgesResults : Obligations.ReadReturnsTheEarlierEdgesResults := by
  intro s t u p q rest sel data he hq hst htu
  have hedges : t.edges = q :: rest := by rw [(step_frame hst).2, he, List.tail_cons]
  rw [step_accepted_instr hedges hq, exec_read] at htu
  obtain rfl := Host.Outcome.next.inj htu
  exact ⟨rfl, reg32_with_rdData t.rom t.regs _⟩

/-! ### Errors and flags -/

/-- Settles O34: an edge that does not reset keeps the errors (`step_keeps_errors`). -/
theorem errorsAreStickyUntilReset : Obligations.ErrorsAreStickyUntilReset := by
  intro s t p rest he hp h
  obtain ⟨hsticky, hrecorded⟩ := step_keeps_errors he hp h
  exact ⟨hsticky, hrecorded⟩

/-- No flag stands above bit 7 of the STATUS word (10_state.md R24). -/
theorem statusWord_bit_high (st : BitVec 8) {i : Nat} (hi : 8 ≤ i) : (statusWord st).getLsbD i = false := by
  rw [statusWord, BitVec.getLsbD_setWidth, BitVec.getLsbD_of_ge st i hi, Bool.and_false]

/-- Settles O36: `statusWord_bit` for each of the eight flags. -/
theorem statusWordLayout : Obligations.StatusWordLayout := fun st =>
  ⟨statusWord_bit st .initDone, statusWord_bit st .freqValid, statusWord_bit st .tick, statusWord_bit st .errOpcode,
    statusWord_bit st .errRate, statusWord_bit st .errDraw, statusWord_bit st .errSeq, statusWord_bit st .errFreq,
    fun _ hi => statusWord_bit_high st hi⟩

/-- INIT clears TICK, whether it loads the rate or raises ERR_SEQ (41_init_and_control.md R101). -/
theorem initRegs_tick (sel : BitVec 4) (data : F32) (r : Regs) : getFlag (initRegs sel data r).status .tick = false := by
  cases hload : rateLoadable data with
  | true => simp [initRegs_loadable sel hload]
  | false => simp [initRegs_not_loadable sel hload]

/-- Settles O37, by cases on what the edge accepts: SAMPLE is `sampleRegs_tick`, INIT and a reset clear TICK, and no
other edge writes it. -/
theorem envTrigIsTheTickLevel : Obligations.EnvTrigIsTheTickLevel := by
  refine ⟨fun r => (statusWord_bit r.status .tick).symm, ?edges⟩
  intro s t p rest he h
  cases hacc : p.accepted with
  | none =>
    obtain rfl := Host.Outcome.next.inj ((step_accepted_none he hacc).symm.trans h)
    cases p.rstN with
    | false => simp
    | true => rfl
  | some d =>
    cases d with
    | reserved op sel =>
      obtain rfl := Host.Outcome.next.inj ((step_accepted_reserved he hacc).symm.trans h)
      show getFlag (raise .opcode op sel s.regs).status .tick = getFlag s.regs.status .tick
      simp
    | instr i =>
      rw [step_accepted_instr he hacc] at h
      cases i with
      | nop sel data =>
        obtain rfl := Host.Outcome.next.inj h
        rfl
      | read sel data =>
        obtain rfl := Host.Outcome.next.inj h
        rfl
      | reset sel data =>
        obtain rfl := Host.Outcome.next.inj h
        simp
      | init sel data =>
        obtain rfl := Host.Outcome.next.inj h
        exact initRegs_tick sel data s.regs
      | sample sel data =>
        obtain rfl := Host.Outcome.next.inj h
        exact sampleRegs_tick

end Sys2Proof.Machine
end

section
/-! PROOF. Rounding (spec/00_scope.md R12): `roundUnits` gives a nearest representable magnitude, the even one of two,
and an infinity from halfway beyond the largest finite value on; sums, quotients and decimal literals take it over
with their signs. -/

namespace Sys2Proof.Machine

/-! ### Rounding to a whole number -/

/-- Rounding is of the quotient, not of the way it is written. -/
theorem nearestEven_mul_right (num den : Nat) {c : Nat} (hc : 0 < c) :
    nearestEven (num * c) (den * c) = nearestEven num den := by
  have hlt : 2 * (num % den * c) < den * c ↔ 2 * (num % den) < den := by
    rw [← Nat.mul_assoc, Nat.mul_lt_mul_right hc]
  have heq : 2 * (num % den * c) = den * c ↔ 2 * (num % den) = den := by
    rw [← Nat.mul_assoc, Nat.mul_left_inj hc.ne']
  simp only [nearestEven, Nat.mul_mod_mul_right, Nat.mul_div_mul_right _ _ hc, hlt, heq]

theorem placeOf_mul_right (num den : Nat) {c : Nat} (hc : 0 < c) : placeOf (num * c) (den * c) = placeOf num den := by
  rw [placeOf, placeOf, Nat.mul_div_mul_right _ _ hc]

theorem roundUnits_mul_right (num den : Nat) {c : Nat} (hc : 0 < c) :
    roundUnits (num * c) (den * c) = roundUnits num den := by
  rw [roundUnits, roundUnits, placeOf_mul_right num den hc, Nat.mul_right_comm, nearestEven_mul_right _ _ hc]

theorem roundUnits_zero {den : Nat} (hden : 0 < den) : roundUnits 0 den = 0 :=
  calc roundUnits 0 den = roundUnits (0 * den) (1 * den) := by rw [Nat.zero_mul, Nat.one_mul]
    _ = roundUnits 0 1 := roundUnits_mul_right 0 1 hden
    _ = 0 := by decide

/-- Rounded down, the remainder is at most half; rounded up, at least half; at half the result is even. -/
theorem nearestEven_cases (num den : Nat) :
    (nearestEven num den = num / den ∧ 2 * (num % den) ≤ den ∧ (2 * (num % den) = den → nearestEven num den % 2 = 0)) ∨
    (nearestEven num den = num / den + 1 ∧ den ≤ 2 * (num % den) ∧
      (2 * (num % den) = den → nearestEven num den % 2 = 0)) := by
  unfold nearestEven
  split_ifs <;> omega

/-- Of the values that are not strictly between the two multiples of `den` around `num`, none is nearer to `num` than
the rounded multiple, and where another is as near the rounded one is even. -/
theorem nearestEven_nearest {num den v : Nat} (hden : 0 < den)
    (hv : v ≤ num / den * den ∨ (num / den + 1) * den ≤ v) :
    |((nearestEven num den * den : Nat) : Int) - num| ≤ |(v : Int) - num| ∧
      (|(v : Int) - num| = |((nearestEven num den * den : Nat) : Int) - num| → v ≠ nearestEven num den * den →
        nearestEven num den % 2 = 0) := by
  have hnum : num / den * den + num % den = num := Nat.div_add_mod' num den
  have hrem : num % den < den := Nat.mod_lt num hden
  have hsucc : (num / den + 1) * den = num / den * den + den := Nat.succ_mul _ _
  simp only [Int.abs_eq_natAbs]
  obtain ⟨hdown, hhalf, heven⟩ | ⟨hup, hhalf, heven⟩ := nearestEven_cases num den
  · rw [hdown] at heven ⊢
    omega
  · rw [hup] at heven ⊢
    omega

/-! ### Rounding to a binary32 magnitude -/

/-- In its place, a quotient has at most 24 bits. -/
theorem placeQuotient_lt (num den : Nat) : num / (den * 2 ^ placeOf num den) < 2 ^ 24 := by
  rw [← Nat.div_div_eq_div_mul]
  apply Nat.div_lt_of_lt_mul
  rw [← pow_add]
  exact quotient_lt_place num den

/-- Above the first binade it has exactly 24. -/
theorem le_placeQuotient {num den : Nat} (h : 0 < placeOf num den) : 2 ^ 23 ≤ num / (den * 2 ^ placeOf num den) := by
  rw [← Nat.div_div_eq_div_mul, Nat.le_div_iff_mul_le (by positivity), ← pow_add, Nat.add_comm]
  exact place_le_quotient h

/-- The pattern of a significand in a binade: the first binade takes every significand, the others those with a
leading one. -/
theorem unitsOf_pattern {k m : Nat} (hm : m ≤ 2 ^ 24) (hlead : 0 < k → 2 ^ 23 ≤ m) :
    unitsOf (k * 2 ^ 23 + m) = m * 2 ^ k := by
  by_cases hfull : 2 ^ 23 ≤ m
  · exact unitsOf_normal hfull hm
  · obtain rfl : k = 0 := by
      by_contra hk
      exact hfull (hlead (Nat.pos_of_ne_zero hk))
    rw [Nat.zero_mul, Nat.zero_add, unitsOf_small (by omega), pow_zero, mul_one]

/-- No magnitude is strictly between the two neighbours of a quotient in its place. -/
theorem unitsOf_not_between (num den c : Nat) :
    unitsOf c ≤ num / (den * 2 ^ placeOf num den) * 2 ^ placeOf num den ∨
      (num / (den * 2 ^ placeOf num den) + 1) * 2 ^ placeOf num den ≤ unitsOf c := by
  have hlt := placeQuotient_lt num den
  have hlead := le_placeQuotient (num := num) (den := den)
  rw [← unitsOf_pattern hlt.le hlead, ← unitsOf_pattern hlt fun h => (hlead h).trans (Nat.le_succ _)]
  obtain hle | hle := Nat.lt_or_ge (placeOf num den * 2 ^ 23 + num / (den * 2 ^ placeOf num den)) c
  · exact .inr (unitsOf_strictMono.monotone hle)
  · exact .inl (unitsOf_strictMono.monotone hle)

/-- Halfway from the largest finite value to `2^128`, in units of 2^-149. -/
def overflowUnits : Nat := (2 ^ 25 - 1) * 2 ^ 252

/-- From there on the result is an infinity. -/
theorem roundUnits_overflow {num den : Nat} (hden : 0 < den) (h : overflowUnits * den ≤ num) :
    roundUnits num den = infBits := by
  refine le_antisymm (roundUnits_le num den) ?_
  calc infBits = roundUnits overflowUnits 1 := by decide
    _ = roundUnits (overflowUnits * den) (1 * den) := (roundUnits_mul_right _ _ hden).symm
    _ = roundUnits (overflowUnits * den) den := by rw [Nat.one_mul]
    _ ≤ roundUnits num den := roundUnits_mono den h

/-- Below it the significand in its place is not cut off at infinity. -/
theorem pattern_lt_infBits {num den : Nat} (h : num < overflowUnits * den) :
    placeOf num den * 2 ^ 23 + nearestEven num (den * 2 ^ placeOf num den) < infBits := by
  have hle := significand_le num den
  have hinf : infBits = 253 * 2 ^ 23 + 2 ^ 24 := by decide
  by_contra hge
  obtain hplace | ⟨hplace, hcarry⟩ : 254 ≤ placeOf num den ∨
      placeOf num den = 253 ∧ nearestEven num (den * 2 ^ placeOf num den) = 2 ^ 24 := by omega
  · have hquot : num / den < overflowUnits := Nat.div_lt_of_lt_mul (Nat.mul_comm _ _ ▸ h)
    have hover : overflowUnits ≤ num / den :=
      calc overflowUnits ≤ 2 ^ 24 * 2 ^ 253 := by decide
        _ ≤ 2 ^ 24 * 2 ^ (placeOf num den - 1) :=
          Nat.mul_le_mul_left _ (Nat.pow_le_pow_right (by decide) (by omega))
        _ = 2 ^ (placeOf num den + 23) := by
          rw [← pow_add]
          congr 1
          omega
        _ ≤ num / den := place_le_quotient (by omega)
    exact absurd hquot hover.not_gt
  · have hquot := placeQuotient_lt num den
    rw [hplace] at hquot hcarry
    have hmod := Nat.div_add_mod' num (den * 2 ^ 253)
    obtain ⟨hdown, -⟩ | ⟨hup, hhalf, -⟩ := nearestEven_cases num (den * 2 ^ 253)
    · omega
    · have hlast : num / (den * 2 ^ 253) = 2 ^ 24 - 1 := by omega
      rw [hlast] at hmod
      have hover : overflowUnits * den * 2 = (2 ^ 24 - 1) * (den * 2 ^ 253) * 2 + den * 2 ^ 253 := by
        unfold overflowUnits
        ring
      omega

theorem roundUnits_of_lt {num den : Nat} (h : num < overflowUnits * den) :
    roundUnits num den = placeOf num den * 2 ^ 23 + nearestEven num (den * 2 ^ placeOf num den) :=
  min_eq_left (pattern_lt_infBits h).le

/-- Below it no magnitude is nearer than the rounded one, and where another is as near, the rounded one is even. -/
theorem roundUnits_nearest {num den : Nat} (hden : 0 < den) (h : num < overflowUnits * den) (c : Nat) :
    |((unitsOf (roundUnits num den) * den : Nat) : Int) - num| ≤ |((unitsOf c * den : Nat) : Int) - num| ∧
      (|((unitsOf c * den : Nat) : Int) - num| = |((unitsOf (roundUnits num den) * den : Nat) : Int) - num| →
        unitsOf c ≠ unitsOf (roundUnits num den) → roundUnits num den % 2 = 0) := by
  have hunits : unitsOf (roundUnits num den) * den =
      nearestEven num (den * 2 ^ placeOf num den) * (den * 2 ^ placeOf num den) := by
    rw [roundUnits_of_lt h, unitsOf_pattern (significand_le num den) le_significand]
    ring
  have hbetween : unitsOf c * den ≤ num / (den * 2 ^ placeOf num den) * (den * 2 ^ placeOf num den) ∨
      (num / (den * 2 ^ placeOf num den) + 1) * (den * 2 ^ placeOf num den) ≤ unitsOf c * den := by
    have hswap (q : Nat) : q * (den * 2 ^ placeOf num den) = q * 2 ^ placeOf num den * den := by ring
    rw [hswap, hswap, Nat.mul_le_mul_right_iff hden, Nat.mul_le_mul_right_iff hden]
    exact unitsOf_not_between num den c
  obtain ⟨hnear, htie⟩ := nearestEven_nearest (by positivity) hbetween
  rw [hunits]
  refine ⟨hnear, fun heq hne => ?_⟩
  have heven := htie heq fun hsame => hne (Nat.mul_right_cancel hden (hsame.trans hunits.symm))
  rw [roundUnits_of_lt h]
  omega

/-! ### Signed values -/

/-- `u` with its sign turned where `neg`. -/
def withSign (neg : Bool) (u : Int) : Int := if neg then -u else u

/-- A word's value is its magnitude with its sign (20_memory.md R47). -/
theorem units32_eq_withSign (a : F32) : units32 a = withSign (signBit a) (unitsOf (magBits a)) := rfl

theorem units32_pack32 (neg : Bool) {b : Nat} (hb : b < 2 ^ 31) : units32 (pack32 neg b) = withSign neg (unitsOf b) := by
  rw [units32_eq_withSign, signBit_pack32 neg hb, magBits_pack32 neg hb]

theorem withSign_withSign (neg : Bool) (u : Int) : withSign neg (withSign neg u) = u := by
  cases neg <;> simp [withSign]

/-- A distance stays when both values are turned. -/
theorem abs_sub_withSign (neg : Bool) (u den v : Int) : |u * den - withSign neg v| = |withSign neg u * den - v| := by
  cases neg with
  | false => rfl
  | true =>
    rw [← abs_neg]
    congr 1
    simp only [withSign, if_true]
    ring

theorem abs_withSign (neg : Bool) (n : Nat) : |withSign neg n| = n := by
  cases neg <;> simp [withSign]

/-- A word's value, turned, is its magnitude or below zero. -/
theorem withSign_units32_cases (neg : Bool) (c : F32) :
    withSign neg (units32 c) = unitsOf (magBits c) ∨ withSign neg (units32 c) < 0 := by
  rw [units32_eq_withSign]
  by_cases hsame : neg = signBit c
  · exact .inl (by rw [hsame, withSign_withSign])
  · have hturned : withSign neg (withSign (signBit c) (unitsOf (magBits c))) = -(unitsOf (magBits c) : Int) := by
      cases neg <;> cases hs : signBit c <;> simp_all [withSign]
    rw [hturned]
    omega

/-- `res` is `x / den` rounded to nearest, ties to even, among the finite values (00_scope.md R12). -/
def NearestTo (res : F32) (x den : Int) : Prop :=
  ∀ c : F32, finite32 c = true →
    |units32 res * den - x| ≤ |units32 c * den - x| ∧
      (|units32 c * den - x| = |units32 res * den - x| → units32 c ≠ units32 res → res.getLsbD 0 = false)

/-- Turning both signs gives the same quotient. -/
theorem NearestTo.turn {res : F32} {x den : Int} (neg : Bool) (h : NearestTo res (withSign neg x) (withSign neg den)) :
    NearestTo res x den := by
  have hturn (u : Int) : |u * withSign neg den - withSign neg x| = |u * den - x| := by
    cases neg with
    | false => rfl
    | true =>
      rw [← abs_neg]
      congr 1
      simp only [withSign, if_true]
      ring
  intro c hc
  rw [← hturn, ← hturn]
  exact h c hc

/-- The last bit of a packed word is that of its magnitude. -/
theorem pack32_bit_zero {b : Nat} (neg : Bool) (hb : b < 2 ^ 31) (heven : b % 2 = 0) :
    (pack32 neg b).getLsbD 0 = false := by
  rw [← BitVec.testBit_toNat, Nat.testBit_zero, pack32_toNat neg hb]
  cases neg <;> simp <;> omega

section Packed
variable {num den : Nat} (neg : Bool) (hden : 0 < den)
include hden

/-- A magnitude rounded and packed with a sign is the value of that sign rounded: of the values of the other sign none
is nearer than zero. -/
theorem nearestTo_pack32 (h : num < overflowUnits * den) :
    NearestTo (pack32 neg (roundUnits num den)) (withSign neg num) den := by
  intro c _
  rw [units32_pack32 neg (roundUnits_lt num den), abs_sub_withSign, abs_sub_withSign, withSign_withSign]
  obtain hsame | hopposite := withSign_units32_cases neg c
  · obtain ⟨hnear, htie⟩ := roundUnits_nearest hden h (magBits c)
    push_cast at hnear htie
    rw [hsame]
    refine ⟨hnear, fun heq hne => pack32_bit_zero neg (roundUnits_lt num den) (htie heq fun hunits => hne ?_)⟩
    rw [← withSign_withSign neg (units32 c), hsame, hunits]
  · obtain ⟨hzero, -⟩ := roundUnits_nearest hden h 0
    have hfar : |((unitsOf 0 * den : Nat) : Int) - num| < |withSign neg (units32 c) * den - num| := by
      have hprod : withSign neg (units32 c) * den < 0 := mul_neg_of_neg_of_pos hopposite (by exact_mod_cast hden)
      rw [unitsOf_zero, Nat.zero_mul, abs_of_nonpos (by omega), abs_of_nonpos (by omega)]
      omega
    push_cast at hzero hfar
    exact ⟨(hzero.trans_lt hfar).le, fun heq => absurd heq (hzero.trans_lt hfar).ne'⟩

/-- Below the overflow threshold the packed word is finite and nearest; from it on it is an infinity. -/
theorem pack32_roundUnits_spec {x : Int} (hx : x = withSign neg num) :
    (|x| < overflowUnits * den → finite32 (pack32 neg (roundUnits num den)) = true ∧
      NearestTo (pack32 neg (roundUnits num den)) x den) ∧
    (overflowUnits * den ≤ |x| → roundUnits num den = infBits) := by
  rw [hx, abs_withSign]
  constructor
  · intro h
    have hlt : num < overflowUnits * den := by exact_mod_cast h
    refine ⟨?_, nearestTo_pack32 neg hden hlt⟩
    rw [finite32_iff, magBits_pack32 neg (roundUnits_lt num den), roundUnits_of_lt hlt]
    exact pattern_lt_infBits hlt
  · intro h
    exact roundUnits_overflow hden (by exact_mod_cast h)

end Packed

theorem isInf32_pack32_infBits (neg : Bool) : isInf32 (pack32 neg infBits) = true := by
  cases neg <;> decide

/-! ### Sums, quotients and decimal rates -/

/-- The sign of a finite sum: that of its exact value, and `-0.0` only from two of them (00_scope.md R12, Log 9). -/
def sumSign (a b : F32) : Bool :=
  if units32 a + units32 b = 0 then signBit a && signBit b else decide (units32 a + units32 b < 0)

/-- A finite sum is its exact value rounded, a zero sum included. -/
theorem add32_eq_rounded {a b : F32} (ha : finite32 a = true) (hb : finite32 b = true) :
    add32 a b = pack32 (sumSign a b) (roundUnits (units32 a + units32 b).natAbs 1) := by
  rw [add32_finite ha hb, sumSign]
  split_ifs with hzero
  · rw [hzero, Int.natAbs_zero, roundUnits_zero Nat.one_pos]
  · rfl

theorem sum_eq_withSign (a b : F32) :
    units32 a + units32 b = withSign (sumSign a b) ((units32 a + units32 b).natAbs : Nat) := by
  unfold sumSign
  split_ifs with hzero
  · cases signBit a && signBit b <;> simp [withSign, hzero]
  · by_cases hneg : units32 a + units32 b < 0
    · rw [decide_eq_true hneg, withSign, if_pos rfl]
      omega
    · rw [decide_eq_false hneg, withSign, if_neg Bool.false_ne_true]
      omega

/-- Settles O46: a sum is its exact value rounded (`add32_eq_rounded`), over the denominator 1. -/
theorem addRoundsToNearestEven : Obligations.AddRoundsToNearestEven := by
  intro a b x ha hb hx
  obtain ⟨hfinite, hinf⟩ := pack32_roundUnits_spec (sumSign a b) Nat.one_pos (sum_eq_withSign a b)
  rw [← add32_eq_rounded ha hb, ← hx] at hfinite
  rw [← hx] at hinf
  have hround := add32_eq_rounded ha hb
  rw [← hx] at hround
  refine ⟨?zero, ?sign, ?below, ?beyond⟩
  case zero =>
    intro hzero
    rw [add32_finite ha hb, ← hx, if_pos hzero]
    cases signBit a && signBit b <;> rfl
  case sign =>
    intro hne
    rw [hround, signBit_pack32 _ (roundUnits_lt _ _), sumSign, ← hx, if_neg hne]
  case below =>
    intro h
    simpa only [NearestTo, Nat.cast_one, mul_one] using hfinite (by simpa [overflowUnits] using h)
  case beyond =>
    intro h
    have hne : x ≠ 0 := by
      rintro rfl
      exact absurd h (by decide)
    rw [hround, hinf (by simpa [overflowUnits] using h), sumSign, ← hx, if_neg hne]
    by_cases hneg : x < 0 <;> simp only [hneg, decide_true, decide_false, if_true, if_false] <;> rfl

theorem units32_eq_zero_iff (a : F32) : units32 a = 0 ↔ magBits a = 0 := by
  rw [← unitsOf_eq_zero_iff, units32_eq_withSign]
  cases signBit a <;> simp [withSign]

/-- Settles O47: a quotient is that of the magnitudes rounded, with the XOR of the signs; where the divisor is
negative, both exact values are turned. -/
theorem divRoundsToNearestEven : Obligations.DivRoundsToNearestEven := by
  intro a b x y ha hb hne hx hy
  have hmag : magBits b ≠ 0 := fun h => hne ((units32_eq_zero_iff b).mpr h)
  have hden : 0 < unitsOf (magBits b) := Nat.pos_of_ne_zero fun h => hmag ((unitsOf_eq_zero_iff _).mp h)
  have hturned : withSign (signBit b) x =
      withSign (signBit a != signBit b) ((unitsOf (magBits a) * 2 ^ 149 : Nat) : Int) := by
    rw [hx, units32_eq_withSign a]
    cases signBit a <;> cases signBit b <;> simp [withSign]
  obtain ⟨hfinite, hinf⟩ := pack32_roundUnits_spec (signBit a != signBit b) hden hturned
  have habs : |withSign (signBit b) x| = |x| := by cases signBit b <;> simp [withSign]
  have hy_abs : |y| = unitsOf (magBits b) := by rw [hy, units32_eq_withSign, abs_withSign]
  have hy_turned : withSign (signBit b) y = unitsOf (magBits b) := by rw [hy, units32_eq_withSign, withSign_withSign]
  rw [← div32_finite ha hb hmag, habs, ← hy_turned] at hfinite
  rw [habs] at hinf
  refine ⟨?sign, ?below, ?beyond⟩
  case sign => rw [div32_finite ha hb hmag, signBit_pack32 _ (roundUnits_lt _ _)]
  case below =>
    intro h
    obtain ⟨hfin, hnear⟩ := hfinite (by simpa [overflowUnits, hy_turned, hy_abs] using h)
    exact ⟨hfin, hnear.turn (signBit b)⟩
  case beyond =>
    intro h
    rw [div32_finite ha hb hmag, hinf (by simpa [overflowUnits, hy_abs] using h)]
    exact isInf32_pack32_infBits _

/-- Settles O50: the rate's bits are its magnitude rounded and packed with its sign. -/
theorem decimalRateRoundsToNearestEven : Obligations.DecimalRateRoundsToNearestEven := by
  intro neg digits scale x hx
  obtain ⟨hfinite, hinf⟩ := pack32_roundUnits_spec (num := digits * 2 ^ 149) (den := 10 ^ scale) neg (by positivity)
    (x := x) (by simpa [withSign] using hx)
  refine ⟨rateBits (.decimal neg digits scale), assemble_init rfl, assemble_setup rfl,
    signBit_pack32 neg (roundUnits_lt _ _), ?below, ?beyond⟩
  case below =>
    intro h
    exact_mod_cast hfinite (by exact_mod_cast h)
  case beyond =>
    intro h
    rw [rateBits, hinf (by exact_mod_cast h)]
    exact isInf32_pack32_infBits neg

/-! ### Special values -/

theorem isNaN32_pack32 (neg : Bool) {b : Nat} (hb : b ≤ infBits) : isNaN32 (pack32 neg b) = false := by
  have hlt : b < 2 ^ 31 := hb.trans_lt (by decide)
  simpa [isNaN32, magBits_pack32 neg hlt] using hb

/-- A sum is the canonical NaN or no NaN (00_scope.md R12). -/
theorem add32_isNaN {a b : F32} (h : isNaN32 (add32 a b) = true) : add32 a b = nan32 := by
  unfold add32 at h ⊢
  split_ifs at h ⊢ with hnan hinfA hboth hinfB hzero
  · rfl
  · rfl
  · simp [h] at hnan
  · simp [h] at hnan
  · simp [isNaN32_pack32] at h
  · simp [isNaN32_pack32, roundUnits_le] at h

/-- A quotient is the canonical NaN or no NaN (00_scope.md R12). -/
theorem div32_isNaN {a b : F32} (h : isNaN32 (div32 a b) = true) : div32 a b = nan32 := by
  unfold div32 at h ⊢
  split_ifs at h ⊢
  · rfl
  · rfl
  · simp [isNaN32_pack32] at h
  · simp [isNaN32_pack32] at h
  · rfl
  · simp [isNaN32_pack32] at h
  · simp [isNaN32_pack32, roundUnits_le] at h

@[simp] theorem isNaN32_neg32 (a : F32) : isNaN32 (neg32 a) = isNaN32 a := by simp [isNaN32]

theorem sub32_nan {a b : F32} (h : isNaN32 a = true ∨ isNaN32 b = true) : sub32 a b = nan32 :=
  add32_nan ((isNaN32_neg32 b).symm ▸ h)

/-- `x - x` is `+0.0` (00_scope.md R12). -/
theorem sub32_self {a : F32} (ha : finite32 a = true) : sub32 a a = zero32 := by
  have hneg : finite32 (neg32 a) = true := by simpa [finite32] using ha
  rw [sub32, add32_finite ha hneg, units32_neg32, signBit_neg32, if_pos (add_neg_cancel _), Bool.and_not_self]
  rfl

/-- A finite value over a zero (00_scope.md R12). -/
theorem div32_zero {a z : F32} (ha : finite32 a = true) (hz : magBits z = 0) :
    div32 a z = if magBits a = 0 then nan32 else pack32 (signBit a != signBit z) infBits := by
  have hz_finite : finite32 z = true := (finite32_iff z).mpr (hz ▸ by decide)
  simp [div32, finite32_not_nan ha, finite32_not_nan hz_finite, finite32_not_inf ha, finite32_not_inf hz_finite, hz]

/-- Settles O48: NaNs by `add32_nan`, `add32_isNaN` and their like, differences by `sub32_self`, zero divisors by
`div32_zero`. -/
theorem specialValueArithmetic : Obligations.SpecialValueArithmetic := by
  refine ⟨?operand, fun a b => ⟨add32_isNaN, add32_isNaN, div32_isNaN⟩, fun a => sub32_self, by decide, ?zeroDivisor,
    by decide, by decide, by decide⟩
  case operand =>
    intro a b h
    have hcompare : (!isNaN32 a && !isNaN32 b) = false := by
      obtain h | h := h <;> simp [h]
    exact ⟨add32_nan h, sub32_nan h, div32_nan h, by rw [ge32, hcompare, Bool.false_and],
      by rw [lt32, hcompare, Bool.false_and]⟩
  case zeroDivisor =>
    intro a z ha hz
    have hmag : magBits z = 0 := by obtain rfl | rfl := hz <;> decide
    rw [ne_eq, units32_eq_zero_iff, div32_zero ha hmag]
    constructor
    · intro hne
      rw [if_neg hne]
      cases signBit a != signBit z <;> rfl
    · intro hzero
      rw [if_pos hzero]
      rfl

end Sys2Proof.Machine
end

section
/-! PROOF. INIT and SAMPLE (spec/41_init_and_control.md R101, spec/40_sample_step.md R76 to R83, R90): which rates and
increments they take, and the state that each case answers. -/

namespace Sys2Proof.Machine

/-! ### The words that the checks take -/

theorem units32_zero32 : units32 zero32 = 0 := rfl

theorem units32_pos_iff (a : F32) : 0 < units32 a ↔ 0 < a.toNat ∧ signBit a = false := by
  have hword := toNat_eq_sign_mag a
  have hmag : 0 < unitsOf (magBits a) ↔ 0 < magBits a := by
    rw [Nat.pos_iff_ne_zero, Nat.pos_iff_ne_zero, ne_eq, unitsOf_eq_zero_iff]
  cases hs : signBit a with
  | false => simpa [units32, hs, hword] using hmag
  | true => simp [units32, hs]

/-- INIT loads the positive finite rates: the words from the smallest subnormal to the largest finite value
(41_init_and_control.md R101). -/
theorem rateLoadable_iff (a : F32) : rateLoadable a = true ↔ 0 < a.toNat ∧ a.toNat < infBits := by
  have hword := toNat_eq_sign_mag a
  have hinf : infBits < 2 ^ 31 := by decide
  rw [rateLoadable_iff_finite_and_pos, lt32_iff, units32_zero32, units32_pos_iff]
  cases hs : signBit a with
  | false =>
    simp only [hs, Bool.false_eq_true, if_false, Nat.zero_add] at hword
    rw [finite32_iff, ← hword]
    refine ⟨fun ⟨hlt, _, _, hpos, _⟩ => ⟨hpos, hlt⟩, fun ⟨hpos, hlt⟩ => ⟨hlt, by decide, ?_, hpos, rfl⟩⟩
    exact finite32_not_nan (finite32_of_toNat_lt hlt)
  | true =>
    simp only [hs, if_true] at hword
    refine ⟨fun ⟨_, _, _, _, h⟩ => absurd h (by decide), fun ⟨_, hlt⟩ => ?_⟩
    omega

/-- Settles O15: `rateLoadable_iff`. -/
theorem initAcceptsPositiveFiniteRates : Obligations.InitAcceptsPositiveFiniteRates := by
  intro data
  exact (rateLoadable_iff_finite_and_pos data).symm.trans (rateLoadable_iff data)

theorem incAdmitted_iff (inc : F32) :
    incAdmitted inc = true ↔ ge32 inc zero32 = true ∧ lt32 inc one32 = true := by simp [incAdmitted]

/-- Admitted are `-0.0` and the words of `[+0.0, 1.0)` (40_sample_step.md R78). -/
theorem incAdmitted_iff_word (inc : F32) : incAdmitted inc = true ↔ inc = 0x80000000#32 ∨ PhaseInUnit inc := by
  rw [incAdmitted_iff, PhaseInUnit]
  constructor
  · rintro ⟨hge, hlt⟩
    exact or_iff_not_imp_left.mpr fun hne => ⟨hge, hlt, hne⟩
  · rintro (rfl | ⟨hge, hlt, -⟩)
    · decide
    · exact ⟨hge, hlt⟩

/-- Settles O21: `incAdmitted_iff_word`, and the words of the interval are those below `1.0`'s (`phaseInUnit_iff`). -/
theorem admittedIncrementWords : Obligations.AdmittedIncrementWords := by
  intro inc
  exact (incAdmitted_iff inc).symm.trans ((incAdmitted_iff_word inc).trans (or_congr_right (phaseInUnit_iff inc)))

/-! ### INIT -/

/-- Settles O14: the word is decoded by `op` alone; the rate is loaded (`initRegs_loadable`) or refused
(`initRegs_not_loadable`). -/
theorem initLoadsRateOrRaisesErrSeq : Obligations.InitLoadsRateOrRaisesErrSeq := by
  refine ⟨?word, fun sel data s => ?answer⟩
  case word =>
    intro w hw
    refine ⟨_, decode_of_op_init ?_⟩
    rw [← opField_masked, hw]
    rfl
  case answer =>
    have hload := rateLoadable_iff_finite_and_pos data
    rw [exec_init]
    constructor
    · intro h
      rw [initRegs_loadable sel (hload.mpr h)]
      rfl
    · intro h
      rw [initRegs_not_loadable sel (Bool.eq_false_iff.mpr fun hl => h (hload.mp hl))]
      rfl

/-! ### SAMPLE, case by case -/

/-- Settles O19: `sampleRegs_before_init`. -/
theorem sampleBeforeInitRaisesErrSeq : Obligations.SampleBeforeInitRaisesErrSeq := by
  intro sel data s hinit
  rw [exec_sample, sampleRegs_before_init hinit]
  rfl

/-- Without a tick the advance writes the sum and clears TICK (40_sample_step.md R79, R80). -/
theorem advanceRegs_of_no_tick {inc : F32} {r : Regs} (h : sampleTicks inc r = false) :
    advanceRegs inc r = { r with status := putFlag r.status .tick false, phase := add32 r.phase inc, phaseInc := inc } := by
  have hphase : wrappedPhase inc r = add32 r.phase inc := if_neg (by simp [h])
  rw [advanceRegs, hphase, h]
  rfl

/-- A tick writes the wrapped sum, sets TICK and counts (40_sample_step.md R79, R80). -/
theorem countedRegs_of_tick {inc : F32} {r : Regs} (h : sampleTicks inc r = true) :
    countedRegs inc r =
      { r with
        status := putFlag r.status .tick true, phase := sub32 (add32 r.phase inc) one32, phaseInc := inc,
        tickCount := r.tickCount + 1#32 } := by
  have hphase : wrappedPhase inc r = sub32 (add32 r.phase inc) one32 := if_pos h
  rw [countedRegs, advanceRegs, hphase, h]
  rfl

/-- Settles O22: `sampleRegs_without_tick`, on registers that only advance. -/
theorem sampleWithoutTickAdvancesPhase : Obligations.SampleWithoutTickAdvancesPhase := by
  intro sel data s inc hquotient hinit hge hlt hstill
  obtain rfl : inc = increment s.ports s.regs := hquotient
  rw [exec_sample, sampleRegs_without_tick hinit ((incAdmitted_iff _).mpr ⟨hge, hlt⟩) hstill,
    advanceRegs_of_no_tick hstill]
  rfl

/-- A SAMPLE that leaves TICK at 1 with a valid draw has written the draw to PITCH_INDEX (40_sample_step.md R81, R82).
-/
theorem sampleRegs_pitchIndex_of_tick {rom : Vector F32 5} {p : Ports} {sel : BitVec 4} {r : Regs}
    (htick : getFlag (sampleRegs rom p sel r).status .tick = true) (hd : p.rndIdx.toNat < 5) :
    (sampleRegs rom p sel r).pitchIndex = p.rndIdx := by
  simp only [sampleRegs_tick, Bool.and_eq_true] at htick
  obtain ⟨⟨hinit, hinc⟩, hticks⟩ := htick
  obtain ⟨hpitch, -⟩ := tickVoices_writes rom p.freqOffset sel ⟨p.rndIdx.toNat, hd⟩ (countedRegs (increment p r) r)
  rw [sampleRegs_valid_draw hinit hinc hticks hd, hpitch, BitVec.ofNat_toNat, BitVec.setWidth_eq]

/-- Settles O23: `sampleRegs_bad_draw` on the counted registers; with a valid draw `sampleRegs_pitchIndex_of_tick`. -/
theorem sampleTickWithBadDrawRaisesErrDraw : Obligations.SampleTickWithBadDrawRaisesErrDraw := by
  constructor
  · intro sel data s inc hquotient hinit hge hlt hticks hd
    obtain rfl : inc = increment s.ports s.regs := hquotient
    rw [exec_sample, sampleRegs_bad_draw hinit ((incAdmitted_iff _).mpr ⟨hge, hlt⟩) hticks hd, countedRegs_of_tick hticks]
    rfl
  · intro sel data s t h htick hd
    obtain rfl := Host.Outcome.next.inj (exec_sample sel data s ▸ h)
    exact sampleRegs_pitchIndex_of_tick htick (Nat.lt_succ_of_le hd)

/-- Settles O24: `sampleRegs_valid_draw` on the counted registers, then the finiteness check of the frequencies. -/
theorem sampleTickWritesVoices : Obligations.SampleTickWritesVoices := by
  rintro sel data s inc t _ v hquotient hinit hge hlt hticks hentry rfl hv
  obtain rfl : inc = increment s.ports s.regs := hquotient
  obtain ⟨hd, hrom⟩ := Vector.getElem?_eq_some_iff.mp hentry
  have hvoices : voiceFreqs (pitchTableAt s.rom ⟨s.ports.rndIdx.toNat, hd⟩) s.ports.freqOffset = v := by
    rw [hv, ← hrom]
    rfl
  have hpitch : BitVec.ofNat 3 s.ports.rndIdx.toNat = s.ports.rndIdx := by
    rw [BitVec.ofNat_toNat, BitVec.setWidth_eq]
  rw [exec_sample, sampleRegs_valid_draw hinit ((incAdmitted_iff _).mpr ⟨hge, hlt⟩) hticks hd, countedRegs_of_tick hticks]
  constructor
  · intro hfinite
    rw [tickVoices_finite sel (hvoices ▸ (allFinite_iff v).mpr hfinite), voicedRegs, hvoices, hpitch]
    rfl
  · rintro ⟨k, hk⟩
    have hnot : allFinite v = false :=
      Bool.eq_false_iff.mpr fun hall => absurd (hk.symm.trans ((allFinite_iff v).mp hall k)) (by decide)
    rw [tickVoices_not_finite sel (hvoices ▸ hnot), voicedRegs, hvoices, hpitch]
    rfl

/-! ### The increment at the corners of the rate's domain -/

/-- The quotient by a positive finite rate has the sign of the dividend. -/
theorem div32_loadable {c sr : F32} (hc : finite32 c = true) (hsr : rateLoadable sr = true) :
    div32 c sr = pack32 (signBit c) (roundUnits (unitsOf (magBits c) * 2 ^ 149) (unitsOf sr.toNat)) := by
  obtain ⟨hpos, hlt⟩ := (rateLoadable_iff sr).mp hsr
  have hinf : infBits < 2 ^ 31 := by decide
  have hmag : magBits sr = sr.toNat := Nat.mod_eq_of_lt (hlt.trans hinf)
  have hsign : (signBit c != signBit sr) = signBit c := by
    rw [signBit_of_toNat_lt (hlt.trans hinf)]
    cases signBit c <;> rfl
  rw [div32_finite hc (finite32_of_toNat_lt hlt) (by omega), hsign, hmag]

theorem unitsOf_toNat_pos {sr : F32} (hsr : rateLoadable sr = true) : 0 < unitsOf sr.toNat := by
  obtain ⟨hpos, -⟩ := (rateLoadable_iff sr).mp hsr
  exact Nat.pos_of_ne_zero fun h => hpos.ne' ((unitsOf_eq_zero_iff _).mp h)

/-- A zero rate gives a zero increment of its own sign (40_sample_step.md R90). -/
theorem div32_of_zero {c sr : F32} (hc : magBits c = 0) (hsr : rateLoadable sr = true) : div32 c sr = c := by
  have hfinite : finite32 c = true := (finite32_iff c).mpr (hc ▸ by decide)
  rw [div32_loadable hfinite hsr, hc, unitsOf_zero, Nat.zero_mul, roundUnits_zero (unitsOf_toNat_pos hsr), ← hc,
    pack32_sign_mag]

/-- A negative rate whose quotient is a zero gives `-0.0` (40_sample_step.md R78). -/
theorem div32_minus_zero {c sr : F32} (hc : finite32 c = true) (hsr : rateLoadable sr = true) (hneg : units32 c < 0)
    (hzero : units32 (div32 c sr) = 0) : div32 c sr = 0x80000000#32 := by
  have hsign : signBit c = true := by
    by_contra hclear
    have hnonneg := (units32_nonneg_iff c).mpr fun h => absurd h hclear
    omega
  have hquotient : signBit (div32 c sr) = true := by
    rw [div32_loadable hc hsr, signBit_pack32 _ (roundUnits_lt _ _), hsign]
  rw [← pack32_sign_mag (div32 c sr), hquotient, (units32_eq_zero_iff _).mp hzero]
  rfl

/-- Settles O20: `sampleRegs_rate_outside`, `sampleRegs_phaseInc`, and the quotients that are `-0.0`. -/
theorem sampleRateOutsideDomainRaisesErrRate : Obligations.SampleRateOutsideDomainRaisesErrRate := by
  refine ⟨?outside, ?inside, by decide, ?minusZero, ?rounded⟩
  case outside =>
    intro sel data s hinit hout
    have hinc : incAdmitted (increment s.ports s.regs) = false :=
      Bool.eq_false_iff.mpr fun h => hout ((incAdmitted_iff _).mp h)
    rw [exec_sample, sampleRegs_rate_outside hinit hinc]
    rfl
  case inside =>
    intro sel data s t hinit hge hlt h
    obtain rfl := Host.Outcome.next.inj (exec_sample sel data s ▸ h)
    rw [State.withRegs_regs, sampleRegs_phaseInc]
    exact if_pos ⟨hinit, (incAdmitted_iff _).mpr ⟨hge, hlt⟩⟩
  case minusZero =>
    intro sr hfinite hpos
    exact div32_of_zero (by decide) ((rateLoadable_iff_finite_and_pos sr).mpr ⟨hfinite, hpos⟩)
  case rounded =>
    intro c sr hc hfinite hneg hpos hzero
    obtain ⟨-, -, hunits⟩ := (lt32_iff c zero32).mp hneg
    exact div32_minus_zero hc ((rateLoadable_iff_finite_and_pos sr).mpr ⟨hfinite, hpos⟩) hunits hzero

/-- An infinite rate gives an infinite increment. -/
theorem div32_inf {c sr : F32} (hc : isInf32 c = true) (hsr : finite32 sr = true) :
    div32 c sr = pack32 (signBit c != signBit sr) infBits := by
  have hnan : isNaN32 c = false := by simp_all [isInf32, isNaN32]
  simp [div32, hnan, hc, finite32_not_nan hsr, finite32_not_inf hsr]

/-- A rate from the sample rate on gives an increment from `1.0` on, as rounding keeps the order. -/
theorem div32_ge_one {c sr : F32} (hc : finite32 c = true) (hsr : rateLoadable sr = true) (hge : units32 sr ≤ units32 c) :
    signBit (div32 c sr) = false ∧ one32.toNat ≤ (div32 c sr).toNat := by
  obtain ⟨hpos, hlt⟩ := (rateLoadable_iff sr).mp hsr
  have hsr_units : units32 sr = unitsOf sr.toNat := units32_of_sign_clear (hlt.trans (by decide))
  have hsr_pos : 0 < unitsOf sr.toNat := unitsOf_toNat_pos hsr
  have hsign : signBit c = false := ((units32_pos_iff c).mp (by omega)).2
  have hmag : unitsOf sr.toNat ≤ unitsOf (magBits c) := by
    have hc_units : units32 c = unitsOf (magBits c) := units32_of_nonneg (by omega)
    omega
  have hround : one32.toNat ≤ roundUnits (unitsOf (magBits c) * 2 ^ 149) (unitsOf sr.toNat) :=
    calc one32.toNat = roundUnits (2 ^ 149) 1 := by decide
      _ = roundUnits (2 ^ 149 * unitsOf sr.toNat) (1 * unitsOf sr.toNat) := (roundUnits_mul_right _ _ hsr_pos).symm
      _ = roundUnits (unitsOf sr.toNat * 2 ^ 149) (unitsOf sr.toNat) := by rw [Nat.mul_comm, Nat.one_mul]
      _ ≤ roundUnits (unitsOf (magBits c) * 2 ^ 149) (unitsOf sr.toNat) :=
        roundUnits_mono _ (Nat.mul_le_mul_right _ hmag)
  rw [div32_loadable hc hsr, hsign, signBit_pack32 _ (roundUnits_lt _ _), pack32_toNat _ (roundUnits_lt _ _)]
  exact ⟨rfl, by simpa using hround⟩

/-- Settles O27: the quotient is a NaN, an infinity, or at least `1.0`. -/
theorem rateAtOrAboveSampleRateIsRejected : Obligations.RateAtOrAboveSampleRateIsRejected := by
  intro c sr hsr hpos h
  have hload : rateLoadable sr = true := (rateLoadable_iff_finite_and_pos sr).mpr ⟨hsr, hpos⟩
  have hcases : isNaN32 c = true ∨ isInf32 c = true ∨ finite32 c = true := by
    simp only [isNaN32, isInf32, finite32, decide_eq_true_eq]
    omega
  obtain hnan | hinf | hfinite := hcases
  · rw [div32_nan (.inl hnan)]
    decide
  · rw [div32_inf hinf hsr]
    cases signBit c != signBit sr <;> decide
  · have hge : units32 sr ≤ units32 c := by
      obtain hnan | hinf | hge := h
      · simp [finite32_not_nan hfinite] at hnan
      · simp [finite32_not_inf hfinite] at hinf
      · exact ((ge32_iff c sr).mp hge).2.2
    obtain ⟨hsign, hone⟩ := div32_ge_one hfinite hload hge
    rw [Bool.eq_false_iff, ne_eq, incAdmitted_iff_word, phaseInUnit_iff, not_or, not_lt]
    refine ⟨fun hzero => ?_, hone⟩
    rw [hzero] at hsign
    exact absurd hsign (by decide)

/-! ### A rate of zero -/

/-- A phase is its own value in units, and packing that value gives it back. -/
theorem PhaseInUnit.eq_pack32 {ph : F32} (hph : PhaseInUnit ph) : pack32 false ph.toNat = ph := by
  have hmag : magBits ph = ph.toNat := by
    rw [phaseInUnit_iff] at hph
    exact Nat.mod_eq_of_lt (hph.trans (by decide))
  calc pack32 false ph.toNat = pack32 (signBit ph) (magBits ph) := by rw [hph.sign_clear, hmag]
    _ = ph := pack32_sign_mag ph

theorem PhaseInUnit.finite {ph : F32} (hph : PhaseInUnit ph) : finite32 ph = true :=
  finite32_of_toNat_lt (((phaseInUnit_iff ph).mp hph).trans (by decide))

/-- Adding a zero of either sign to a phase leaves it (40_sample_step.md R86). -/
theorem add32_zero_of_phaseInUnit {ph inc : F32} (hph : PhaseInUnit ph) (hinc : magBits inc = 0) : add32 ph inc = ph := by
  have hword := (phaseInUnit_iff ph).mp hph
  have hfinite : finite32 inc = true := (finite32_iff inc).mpr (hinc ▸ by decide)
  have hsum : units32 ph + units32 inc = unitsOf ph.toNat := by
    rw [(units32_eq_zero_iff inc).mpr hinc, add_zero, units32_of_sign_clear (hword.trans (by decide))]
  rw [add32_of_representable hph.finite hfinite hph.sign_clear (hword.le.trans (by decide)) hsum, hph.eq_pack32]

/-- A phase in its interval is below `1.0`, so it does not tick by itself. -/
theorem PhaseInUnit.not_ge_one {ph : F32} (hph : PhaseInUnit ph) : ge32 ph one32 = false := by
  have hword := (phaseInUnit_iff ph).mp hph
  rw [Bool.eq_false_iff, ne_eq, ge32_one_iff (hword.trans (by decide)), not_le]
  exact hword

/-- Settles O26: the increment is the zero itself, which is admitted, and the sum is PHASE, below `1.0`. -/
theorem zeroRateHoldsThePhase : Obligations.ZeroRateHoldsThePhase := by
  intro sel data s hinv hinit hrate
  obtain ⟨htimer, -, -⟩ := (regsInv_iff s.regs).mp hinv
  have hzero : magBits s.ports.clockRate = 0 := by obtain h | h := hrate <;> rw [h] <;> decide
  have hinc : increment s.ports s.regs = s.ports.clockRate := div32_of_zero hzero (htimer.rate_positive hinit)
  have hadmitted : incAdmitted s.ports.clockRate = true := by obtain h | h := hrate <;> rw [h] <;> decide
  have hsum : add32 s.regs.phase s.ports.clockRate = s.regs.phase := add32_zero_of_phaseInUnit htimer.phase_in_unit hzero
  have hstill : sampleTicks s.ports.clockRate s.regs = false := by
    rw [sampleTicks, phaseSum, hsum, htimer.phase_in_unit.not_ge_one]
  rw [exec_sample, sampleRegs_without_tick hinit (hinc ▸ hadmitted) (hinc.symm ▸ hstill), hinc,
    advanceRegs_of_no_tick hstill, hsum]
  rfl

end Sys2Proof.Machine
end

section
/-! PROOF. What a command does not touch (spec/20_memory.md R49, R50, spec/30_encoding.md R65, spec/60_exceptions.md
R121): registers of other commands, ignored fields, ports it does not read, and errors beyond its one. -/

namespace Sys2Proof.Machine

/-! ### At most one error, and the `sel` in its record -/

theorem ErrKind.flag_injective : Function.Injective ErrKind.flag := by
  intro e e' h
  apply ErrKind.code_injective
  apply BitVec.eq_of_toNat_eq
  have hbit := congrArg Flag.bit h
  rw [ErrKind.flag_bit, ErrKind.flag_bit] at hbit
  omega

section RaisesAtMostOne
variable {kinds : ErrKind → Prop} {op : BitVec 4} {r : Regs} {f : BitVec 4 → Regs}

/-- An error bit that the command sets is of one of its kinds, and the only one. -/
theorem RaisesAtMostOne.newly_set (hf : RaisesAtMostOne kinds op r f) {sel : BitVec 4} {e : ErrKind}
    (hclear : getFlag r.status e.flag = false) (hset : getFlag (f sel).status e.flag = true) :
    kinds e ∧ ∀ e', getFlag r.status e'.flag = false → getFlag (f sel).status e'.flag = true → e' = e := by
  obtain ⟨q, ⟨hflags, -⟩, hquiet | ⟨e₀, hkind, hraise⟩⟩ := hf
  · rw [hquiet, hflags, hclear] at hset
    exact absurd hset (by decide)
  · have raised {e' : ErrKind} (hclear' : getFlag r.status e'.flag = false)
        (hset' : getFlag (f sel).status e'.flag = true) : e' = e₀ := by
      rw [hraise, raise_status, getFlag_putFlag, hflags, hclear'] at hset'
      exact ErrKind.flag_injective (by simpa using hset')
    obtain rfl := raised hclear hset
    exact ⟨hkind, fun _ => raised⟩

/-- With another `sel` the command differs in the record's `sel` at most, and only where it makes the record. -/
theorem RaisesAtMostOne.sel_recorded (hf : RaisesAtMostOne kinds op r f) (sel sel' : BitVec 4) :
    f sel' = { f sel with errInfo := { (f sel).errInfo with sel := (f sel').errInfo.sel } } ∧
      ((f sel').errInfo.sel ≠ (f sel).errInfo.sel → r.errInfo.code = 0#3 ∧ (f sel).errInfo.sel = sel) := by
  obtain ⟨q, ⟨-, hrecord⟩, hquiet | ⟨e, -, hraise⟩⟩ := hf
  · rw [hquiet, hquiet]
    exact ⟨rfl, fun h => absurd rfl h⟩
  · rw [hraise, hraise]
    by_cases hfirst : q.errInfo.code = 0#3
    · simp [raise, recordFirst_of_clean hfirst, ← hrecord, hfirst]
    · simp [raise, recordFirst_of_recorded hfirst]

end RaisesAtMostOne

/-- Settles O33: NOP, RESET and READ set no error bit; INIT and SAMPLE by `RaisesAtMostOne.newly_set`. -/
theorem atMostOneErrorPerCommand : Obligations.AtMostOneErrorPerCommand := by
  intro i s t e e' h hclear hset
  cases i with
  | nop sel data =>
    obtain rfl := Host.Outcome.next.inj (exec_nop sel data s ▸ h)
    exact absurd (hset.symm.trans hclear) (by decide)
  | reset sel data =>
    obtain rfl := Host.Outcome.next.inj (exec_reset sel data s ▸ h)
    simp at hset
  | init sel data =>
    obtain rfl := Host.Outcome.next.inj (exec_init sel data s ▸ h)
    obtain ⟨hkind, honly⟩ := (initRegs_raisesAtMostOne data s.regs).newly_set hclear hset
    exact ⟨.inl ⟨rfl, hkind⟩, honly e'⟩
  | sample sel data =>
    obtain rfl := Host.Outcome.next.inj (exec_sample sel data s ▸ h)
    obtain ⟨hkind, honly⟩ := (sampleRegs_raisesAtMostOne s.rom s.ports s.regs).newly_set hclear hset
    exact ⟨.inr ⟨rfl, hkind⟩, honly e'⟩
  | read sel data =>
    obtain rfl := Host.Outcome.next.inj (exec_read sel data s ▸ h)
    exact absurd (hset.symm.trans hclear) (by decide)

/-- Settles O41: NOP and RESET read no field, READ its `sel` only, and SAMPLE and INIT by
`RaisesAtMostOne.sel_recorded`. -/
theorem ignoredFieldsHaveNoEffect : Obligations.IgnoredFieldsHaveNoEffect := by
  refine ⟨fun _ _ _ _ _ => ⟨rfl, rfl, rfl⟩, ?sample, ?init⟩
  case sample =>
    intro sel sel' data data' s t t' h h'
    obtain rfl := Host.Outcome.next.inj (exec_sample sel data s ▸ h)
    obtain rfl := Host.Outcome.next.inj (exec_sample sel' data' s ▸ h')
    obtain ⟨hregs, hsel⟩ := (sampleRegs_raisesAtMostOne s.rom s.ports s.regs).sel_recorded sel sel'
    exact ⟨congrArg s.withRegs hregs, hsel⟩
  case init =>
    intro sel sel' data s t t' h h'
    obtain rfl := Host.Outcome.next.inj (exec_init sel data s ▸ h)
    obtain rfl := Host.Outcome.next.inj (exec_init sel' data s ▸ h')
    obtain ⟨hregs, hsel⟩ := (initRegs_raisesAtMostOne data s.regs).sel_recorded sel sel'
    exact ⟨congrArg s.withRegs hregs, hsel⟩

/-! ### The registers each command leaves -/

/-- INIT leaves the pitch, the voices, TICK_COUNT, FREQ_VALID and RD_DATA (20_memory.md R50). -/
theorem initRegs_frame (sel : BitVec 4) (data : F32) (r : Regs) :
    (initRegs sel data r).pitchIndex = r.pitchIndex ∧ (initRegs sel data r).tickCount = r.tickCount ∧
      (initRegs sel data r).voiceFreq = r.voiceFreq ∧
      getFlag (initRegs sel data r).status .freqValid = getFlag r.status .freqValid ∧
      (initRegs sel data r).rdData = r.rdData := by
  cases hload : rateLoadable data with
  | true => simp [initRegs_loadable sel hload]
  | false => simp [initRegs_not_loadable sel hload, ErrKind.flag]

/-- Settles O39, by cases on the command: each register that its clause lets the command write needs nothing, and the
others are left by `initRegs_frame`, `sampleRegs_frame` and the definitions. -/
theorem eachRegisterHasItsWriters : Obligations.EachRegisterHasItsWriters := by
  intro i s t h
  have hframe := exec_frame h
  cases i with
  | nop sel data =>
    obtain rfl := Host.Outcome.next.inj (exec_nop sel data s ▸ h)
    exact ⟨fun _ _ => rfl, fun _ _ _ => ⟨rfl, rfl, rfl, rfl⟩, fun _ _ => ⟨rfl, rfl, rfl, rfl⟩, fun _ _ => rfl,
      fun _ _ => rfl, hframe⟩
  | reset sel data =>
    exact ⟨fun hop => absurd rfl hop, fun hop => absurd rfl hop, fun hop => absurd rfl hop, fun hop => absurd rfl hop,
      fun hop => absurd rfl hop, hframe⟩
  | init sel data =>
    obtain rfl := Host.Outcome.next.inj (exec_init sel data s ▸ h)
    obtain ⟨hpitch, hcount, hvoices, hvalid, hrdData⟩ := initRegs_frame sel data s.regs
    exact ⟨fun _ hop => absurd rfl hop, fun _ hop => absurd rfl hop, fun _ _ => ⟨hpitch, hcount, hvoices, hvalid⟩,
      fun _ _ => hrdData, fun _ hop => absurd rfl hop, hframe⟩
  | sample sel data =>
    obtain rfl := Host.Outcome.next.inj (exec_sample sel data s ▸ h)
    obtain ⟨hrate, hrdData⟩ := sampleRegs_frame s.rom s.ports sel s.regs
    exact ⟨fun _ _ => hrate, fun _ _ hop => absurd rfl hop, fun _ hop => absurd rfl hop, fun _ _ => hrdData,
      fun _ _ => sampleRegs_initDone s.rom s.ports sel s.regs, hframe⟩
  | read sel data =>
    obtain rfl := Host.Outcome.next.inj (exec_read sel data s ▸ h)
    exact ⟨fun _ _ => rfl, fun _ _ _ => ⟨rfl, rfl, rfl, rfl⟩, fun _ _ => ⟨rfl, rfl, rfl, rfl⟩,
      fun _ hop => absurd rfl hop, fun _ _ => rfl, hframe⟩

/-- Settles O42, by cases on the command: only `execSample` reads the ports, and every command leaves them. -/
theorem onlySampleReadsTheParameterPorts : Obligations.OnlySampleReadsTheParameterPorts := by
  intro i s t c o d hop h
  cases i with
  | sample sel data => exact absurd rfl hop
  | nop sel data | reset sel data | init sel data | read sel data =>
    obtain rfl := Host.Outcome.next.inj h
    rfl

/-! ### Commands executed again -/

theorem putFlag_putFlag_same (st : BitVec 8) (f : Flag) (v : Bool) : putFlag (putFlag st f v) f v = putFlag st f v := by
  apply status_ext
  intro g
  by_cases h : g = f <;> simp [h]

theorem putFlag_comm (st : BitVec 8) {f g : Flag} (hfg : f ≠ g) (v w : Bool) :
    putFlag (putFlag st f v) g w = putFlag (putFlag st g w) f v := by
  apply status_ext
  intro k
  by_cases hf : k = f
  · simp [hf, hfg]
  · simp [hf]

/-- Raising the same error again changes nothing more (60_exceptions.md R123). -/
theorem raise_raise (e : ErrKind) (op sel : BitVec 4) (r : Regs) :
    raise e op sel (raise e op sel r) = raise e op sel r := by
  have hrecord := recordFirst_of_recorded (e := e) (op := op) (sel := sel)
    (recordFirst_code_ne_zero e op sel r.errInfo)
  simp only [raise, putFlag_putFlag_same, hrecord]

/-- INIT executed again on what it left changes nothing more (20_memory.md R50). -/
theorem initRegs_initRegs (sel : BitVec 4) (data : F32) (r : Regs) :
    initRegs sel data (initRegs sel data r) = initRegs sel data r := by
  cases hload : rateLoadable data with
  | true =>
    simp only [initRegs_loadable sel hload, Regs.setFlag]
    rw [putFlag_comm _ (by decide : Flag.initDone ≠ .tick), putFlag_putFlag_same, putFlag_putFlag_same]
  | false =>
    have hagain : (raise .seq opInit sel (r.setFlag .tick false)).setFlag .tick false =
        raise .seq opInit sel (r.setFlag .tick false) := by
      simp only [raise, Regs.setFlag]
      rw [putFlag_comm _ (by decide : ErrKind.seq.flag ≠ .tick), putFlag_putFlag_same]
    rw [initRegs_not_loadable sel hload, initRegs_not_loadable sel hload, hagain, raise_raise]

/-- Settles O40, by cases on the command: INIT is `initRegs_initRegs`, a reserved word `raise_raise`; a second READ
finds the register that the first one found. -/
theorem commandsOtherThanSampleAreIdempotent : Obligations.CommandsOtherThanSampleAreIdempotent := by
  constructor
  · intro i s t hop h
    cases i with
    | nop sel data => rfl
    | reset sel data =>
      obtain rfl := Host.Outcome.next.inj (exec_reset sel data s ▸ h)
      rfl
    | init sel data =>
      obtain rfl := Host.Outcome.next.inj (exec_init sel data s ▸ h)
      rw [exec_init, State.withRegs_regs, initRegs_initRegs]
      rfl
    | sample sel data => exact absurd rfl hop
    | read sel data =>
      obtain rfl := Host.Outcome.next.inj (exec_read sel data s ▸ h)
      rw [exec_read, State.withRegs_rom, State.withRegs_regs, reg32_with_rdData]
      rfl
  · intro op sel s t h
    obtain rfl := Host.Outcome.next.inj h
    rw [execReserved, State.withRegs_regs, raise_raise]
    rfl

/-! ### The words of the Parameter Store -/

/-- An edge that accepts a SAMPLE is a sampling edge (20_memory.md R49). -/
theorem Ports.samples_of_accepted {p : Ports} {sel : BitVec 4} {data : BitVec 32}
    (h : p.accepted = some (.instr (.sample sel data))) : p.samples = true := by
  obtain ⟨⟨hrst, hvalid⟩, hd⟩ := (p.accepted_eq_some_iff _).mp h
  have hop : opField p.cmd = opSample := (opcode_of_decode hd).symm
  simp [Ports.samples, hrst, hvalid, hop]

/-- A SAMPLE leaves the voices, or writes the formulas of the port's offset and the ROM entry that PITCH_INDEX then
names (40_sample_step.md R82). -/
theorem sampleRegs_voiceFreq_cases (rom : Vector F32 5) (p : Ports) (sel : BitVec 4) (r : Regs) :
    (sampleRegs rom p sel r).voiceFreq = r.voiceFreq ∨
      ∃ i : Fin 5, (sampleRegs rom p sel r).voiceFreq = voiceFreqs rom[i] p.freqOffset ∧
        (sampleRegs rom p sel r).pitchIndex.toNat = i.val := by
  by_cases hheld : getFlag (sampleRegs rom p sel r).status .tick = false ∨ 4 < p.rndIdx.toNat
  · exact .inl (sampleRegs_voiceFreq_held hheld)
  · rw [not_or, Bool.not_eq_false, not_lt] at hheld
    obtain ⟨htick, hdraw⟩ := hheld
    have hd : p.rndIdx.toNat < 5 := Nat.lt_succ_of_le hdraw
    refine .inr ⟨⟨p.rndIdx.toNat, hd⟩, ?_, by rw [sampleRegs_pitchIndex_of_tick htick hd]⟩
    simp only [sampleRegs_tick, Bool.and_eq_true] at htick
    obtain ⟨⟨hinit, hinc⟩, hticks⟩ := htick
    obtain ⟨-, hvoices⟩ := tickVoices_writes rom p.freqOffset sel ⟨p.rndIdx.toNat, hd⟩ (countedRegs (increment p r) r)
    rw [sampleRegs_valid_draw hinit hinc hticks hd, hvoices]
    rfl

/-- Settles O31: the edge samples, so its two words are of the Parameter Store; SAMPLE's increment and voices are
those of `sampleRegs_phaseInc` and `sampleRegs_voiceFreq_cases`. -/
theorem sampledWordsComeFromTheParameterStore : Obligations.SampledWordsComeFromTheParameterStore := by
  intro rateWrites offsetWrites s t p rest sel data hwords he hacc h
  rw [step_accepted_instr he hacc, exec_sample] at h
  obtain rfl := Host.Outcome.next.inj h
  rw [he] at hwords
  obtain ⟨hrate, hoffset⟩ := hwords p List.mem_cons_self (Ports.samples_of_accepted hacc)
  refine ⟨?phaseInc, ?voices, fun q hq => hwords q (List.mem_cons_of_mem p hq)⟩
  case phaseInc =>
    rw [State.withRegs_regs, sampleRegs_phaseInc]
    split
    · exact .inr ⟨p.clockRate, hrate, rfl⟩
    · exact .inl rfl
  case voices =>
    obtain hheld | ⟨i, hvoices, hpitch⟩ := sampleRegs_voiceFreq_cases s.rom p sel s.regs
    · exact .inl hheld
    · exact .inr ⟨p.freqOffset, hoffset, i, hvoices, hpitch⟩

end Sys2Proof.Machine
end

section
/-! PROOF. Runs of SAMPLEs with one constant increment (spec/40_sample_step.md R86): while the sums are exact the
phase counts the SAMPLEs, so the increment `2^-k` ticks on every `2^k`-th, and `2^-25` stalls at 0.5 before it ticks.
-/

namespace Sys2Proof.Machine

/-! ### A run of SAMPLEs -/

/-- A run of edges that all present one SAMPLE with the same words is SAMPLE on the registers, again and again. -/
theorem run_samples {p : Ports} {sel : BitVec 4} {data : BitVec 32} (hacc : p.accepted = some (.instr (.sample sel data)))
    (n : Nat) : ∀ {s : State}, s.edges = List.replicate n p →
      ∃ t, core.run n s = .next t ∧ t.regs = (sampleRegs s.rom p sel)^[n] s.regs := by
  induction n with
  | zero => exact fun {s} _ => ⟨s, rfl, rfl⟩
  | succ n ih =>
    intro s he
    have hstep := step_accepted_instr (he.trans List.replicate_succ) hacc
    rw [exec_sample] at hstep
    obtain ⟨t, hrun, hregs⟩ := ih (s := (s.acceptEdge p (List.replicate n p)).withRegs (sampleRegs s.rom p sel s.regs)) rfl
    exact ⟨t, (run_succ_of_step n hstep).trans hrun, hregs⟩

/-! ### One SAMPLE of the run -/

/-- Steps 6 to 8 do not write PHASE (40_sample_step.md R81 to R83). -/
theorem tickRegs_phase (rom : Vector F32 5) (p : Ports) (sel : BitVec 4) (r : Regs) :
    (tickRegs rom p sel r).phase = r.phase := by
  by_cases hd : p.rndIdx.toNat < 5
  · obtain ⟨-, hphase, -⟩ := tickVoices_frame rom p.freqOffset sel ⟨p.rndIdx.toNat, hd⟩
      { r with tickCount := r.tickCount + 1#32 }
    exact (congrArg Regs.phase (dif_pos hd)).trans hphase
  · rw [tickRegs_bad_draw (Nat.not_lt.mp hd), raise_phase]

theorem sampleRegs_phase {rom : Vector F32 5} {p : Ports} {sel : BitVec 4} {r : Regs}
    (hinit : getFlag r.status .initDone = true) (hinc : incAdmitted (increment p r) = true) :
    (sampleRegs rom p sel r).phase = wrappedPhase (increment p r) r := by
  cases htick : sampleTicks (increment p r) r with
  | false => rw [sampleRegs_without_tick hinit hinc htick, advanceRegs_phase]
  | true => rw [sampleRegs_with_tick hinit hinc htick, tickRegs_phase, advanceRegs_phase]

/-- Where the timer stands: started at the rate `sr`, with the phase at `m` times `2^j` units. -/
structure TimerAt (sr : F32) (j m : Nat) (r : Regs) : Prop where
  started : getFlag r.status .initDone = true
  rate : r.sampleRate = sr
  phase : PhaseInUnit r.phase
  place : units32 r.phase = ((m * 2 ^ j : Nat) : Int)

/-- The words of an increment of `2^j` units at the rate `sr`. -/
structure StepsBy (p : Ports) (sr inc : F32) (j : Nat) : Prop where
  quotient : div32 p.clockRate sr = inc
  inc_in_unit : PhaseInUnit inc
  size : units32 inc = ((2 ^ j : Nat) : Int)
  place_le : j ≤ 253

section OneSample
variable {rom : Vector F32 5} {p : Ports} {sel : BitVec 4} {r : Regs} {sr inc : F32} {j m : Nat}

/-- A SAMPLE of the run ticks where the sum of phase and increment reaches `1.0`, and moves the timer there. -/
theorem TimerAt.sample (h : TimerAt sr j m r) (hp : StepsBy p sr inc j) {m' : Nat}
    (hphase : PhaseInUnit (wrappedPhase inc r)) (hplace : units32 (wrappedPhase inc r) = ((m' * 2 ^ j : Nat) : Int)) :
    TimerAt sr j m' (sampleRegs rom p sel r) ∧
      getFlag (sampleRegs rom p sel r).status .tick = ge32 (add32 r.phase inc) one32 := by
  have hincr : increment p r = inc := by rw [increment, h.rate, hp.quotient]
  have hadmitted : incAdmitted (increment p r) = true := hincr.symm ▸ (incAdmitted_iff_word inc).mpr (.inr hp.inc_in_unit)
  have hwritten : (sampleRegs rom p sel r).phase = wrappedPhase inc r := hincr ▸ sampleRegs_phase h.started hadmitted
  refine ⟨⟨?_, (sampleRegs_frame rom p sel r).1.trans h.rate, hwritten.symm ▸ hphase, hwritten.symm ▸ hplace⟩, ?_⟩
  · rw [sampleRegs_initDone, h.started]
  · rw [sampleRegs_tick, h.started, hadmitted, hincr, Bool.and_self, Bool.true_and]
    rfl

/-- While the count fits a significand, the sum is exact. -/
theorem TimerAt.sum_exact (h : TimerAt sr j m r) (hp : StepsBy p sr inc j) (hm : m < 2 ^ 24) :
    ∃ c ≤ infBits, unitsOf c = (m + 1) * 2 ^ j ∧ add32 r.phase inc = pack32 false c := by
  have hinf : infBits = 253 * 2 ^ 23 + 2 ^ 24 := by decide
  have hj : j * 2 ^ 23 + 2 ^ 24 ≤ infBits := by
    have := hp.place_le
    omega
  obtain ⟨c, hc, hunits⟩ : ∃ c ≤ j * 2 ^ 23 + 2 ^ 24, unitsOf c = (m + 1) * 2 ^ j := by
    obtain hlt | hfull := Nat.lt_or_eq_of_le hm
    · exact exists_unitsOf_eq j hlt
    · exact ⟨j * 2 ^ 23 + 2 ^ 24, le_rfl, by rw [unitsOf_normal (by decide) le_rfl, ← hfull]⟩
  refine ⟨c, hc.trans hj, hunits, ?_⟩
  refine add32_of_representable h.phase.finite hp.inc_in_unit.finite h.phase.sign_clear (hc.trans hj) ?_
  rw [h.place, hp.size, hunits]
  push_cast
  ring

theorem wrappedPhase_of_lt (h : PhaseInUnit (add32 r.phase inc)) : wrappedPhase inc r = add32 r.phase inc :=
  if_neg (by simp [sampleTicks, phaseSum, h.not_ge_one])

/-- Below `1.0` in units, the SAMPLE counts and does not tick. -/
theorem TimerAt.advance (h : TimerAt sr j m r) (hp : StepsBy p sr inc j) (hm : m < 2 ^ 24)
    (hbelow : (m + 1) * 2 ^ j < unitsOf one32.toNat) :
    TimerAt sr j (m + 1) (sampleRegs rom p sel r) ∧ getFlag (sampleRegs rom p sel r).status .tick = false := by
  obtain ⟨c, hc, hunits, hsum⟩ := h.sum_exact hp hm
  have hc31 : c < 2 ^ 31 := hc.trans_lt (by decide)
  have hone : c < one32.toNat := by rwa [← unitsOf_strictMono.lt_iff_lt, hunits]
  have hphase : PhaseInUnit (add32 r.phase inc) := by
    rw [phaseInUnit_iff, hsum, pack32_toNat false hc31]
    simpa using hone
  have hplace : units32 (add32 r.phase inc) = (((m + 1) * 2 ^ j : Nat) : Int) := by
    rw [hsum, units32_pack32_false hc31, hunits]
  rw [← wrappedPhase_of_lt hphase] at hplace
  obtain ⟨hnext, htick⟩ := h.sample (rom := rom) (sel := sel) hp (wrappedPhase_of_lt hphase ▸ hphase) hplace
  exact ⟨hnext, htick.trans hphase.not_ge_one⟩

/-- At `1.0` it ticks, and the phase starts again at `+0.0`. -/
theorem TimerAt.tick (h : TimerAt sr j m r) (hp : StepsBy p sr inc j) (hm : m < 2 ^ 24)
    (hone : (m + 1) * 2 ^ j = unitsOf one32.toNat) :
    TimerAt sr j 0 (sampleRegs rom p sel r) ∧ getFlag (sampleRegs rom p sel r).status .tick = true := by
  obtain ⟨c, -, hunits, hsum⟩ := h.sum_exact hp hm
  obtain rfl : c = one32.toNat := unitsOf_strictMono.injective (hunits.trans hone)
  have hsum_one : add32 r.phase inc = one32 := hsum
  have hwrapped : wrappedPhase inc r = zero32 := by
    rw [wrappedPhase, sampleTicks, phaseSum, hsum_one]
    decide
  obtain ⟨hnext, htick⟩ := h.sample (rom := rom) (sel := sel) (m' := 0) hp (hwrapped ▸ zero32_phaseInUnit)
    (by rw [hwrapped, Nat.zero_mul]; rfl)
  refine ⟨hnext, htick.trans ?_⟩
  rw [hsum_one]
  decide

end OneSample

/-! ### The increment 2^-k -/

theorem unitsOf_one32 : unitsOf one32.toNat = 2 ^ 149 := by decide

/-- The word of `2^-k` is `2^(149 - k)` units. -/
theorem stepsBy_two_pow_neg {p : Ports} {sr : F32} {k : Nat} (hk : 1 ≤ k) (hk' : k ≤ 24)
    (h : div32 p.clockRate sr = BitVec.ofNat 32 ((127 - k) * 2 ^ 23)) :
    StepsBy p sr (BitVec.ofNat 32 ((127 - k) * 2 ^ 23)) (149 - k) := by
  have hone : one32.toNat = 127 * 2 ^ 23 := by decide
  have hword : (BitVec.ofNat 32 ((127 - k) * 2 ^ 23)).toNat = (127 - k) * 2 ^ 23 := by
    rw [BitVec.toNat_ofNat]
    omega
  refine ⟨h, ?_, ?_, by omega⟩
  · rw [phaseInUnit_iff, hword]
    omega
  · have hpattern : (127 - k) * 2 ^ 23 = (126 - k) * 2 ^ 23 + 2 ^ 23 := by omega
    rw [units32_of_sign_clear (by omega), hword, hpattern, unitsOf_normal le_rfl (by decide), ← pow_add]
    congr 3
    omega

/-- From `+0.0`, the `n`-th SAMPLE leaves the phase at `n` modulo `2^k` increments, and ticks where that is zero. -/
theorem timerAt_iterate {rom : Vector F32 5} {p : Ports} {sel : BitVec 4} {r : Regs} {sr inc : F32} {k : Nat} (hk : k ≤ 24)
    (hp : StepsBy p sr inc (149 - k)) (h : TimerAt sr (149 - k) 0 r) (n : Nat) :
    TimerAt sr (149 - k) (n % 2 ^ k) ((sampleRegs rom p sel)^[n] r) ∧
      (1 ≤ n → getFlag ((sampleRegs rom p sel)^[n] r).status .tick = decide (2 ^ k ∣ n)) := by
  have hperiod : 2 ^ k * 2 ^ (149 - k) = unitsOf one32.toNat := by
    rw [unitsOf_one32, ← pow_add]
    congr 1
    omega
  have hfits : 2 ^ k ≤ 2 ^ 24 := Nat.pow_le_pow_right (by decide) hk
  induction n with
  | zero => exact ⟨by rwa [Nat.zero_mod], fun hn => absurd hn (by decide)⟩
  | succ n ih =>
    obtain ⟨hat, -⟩ := ih
    rw [Function.iterate_succ_apply']
    have hlt : n % 2 ^ k < 2 ^ k := Nat.mod_lt n (by positivity)
    have hsucc : (n + 1) % 2 ^ k = (n % 2 ^ k + 1) % 2 ^ k := (Nat.mod_add_mod n (2 ^ k) 1).symm
    obtain hbelow | hfull := Nat.lt_or_eq_of_le (Nat.succ_le_of_lt hlt)
    · rw [Nat.mod_eq_of_lt hbelow] at hsucc
      obtain ⟨hnext, htick⟩ := hat.advance (rom := rom) (sel := sel) hp (hlt.trans_le hfits)
        (hperiod ▸ Nat.mul_lt_mul_of_pos_right hbelow (by positivity))
      refine ⟨hsucc ▸ hnext, fun _ => htick.trans (decide_eq_false fun hdvd => ?_).symm⟩
      rw [Nat.dvd_iff_mod_eq_zero, hsucc] at hdvd
      omega
    · rw [show n % 2 ^ k + 1 = 2 ^ k from hfull, Nat.mod_self] at hsucc
      obtain ⟨hnext, htick⟩ := hat.tick (rom := rom) (sel := sel) hp (hlt.trans_le hfits)
        (hperiod ▸ congrArg (· * 2 ^ (149 - k)) hfull)
      exact ⟨hsucc ▸ hnext, fun _ => htick.trans (decide_eq_true (Nat.dvd_of_mod_eq_zero hsucc)).symm⟩

/-- A started timer at `+0.0`. -/
theorem timerAt_zero {r : Regs} (hinit : getFlag r.status .initDone = true) (hphase : r.phase = 0x00000000#32) (j : Nat) :
    TimerAt r.sampleRate j 0 r :=
  ⟨hinit, rfl, hphase ▸ zero32_phaseInUnit, by rw [hphase, Nat.zero_mul]; rfl⟩

/-- Settles O29: the run is SAMPLE iterated (`run_samples`), and the phase counts modulo `2^k` (`timerAt_iterate`). -/
theorem powerOfTwoIncrementTicksEveryPeriod : Obligations.PowerOfTwoIncrementTicksEveryPeriod := by
  intro k n s p sel data hk hk' hn he hrst hvalid hd hinit hphase hinc
  obtain ⟨t, hrun, hregs⟩ := run_samples ((p.accepted_eq_some_iff _).mpr ⟨⟨hrst, hvalid⟩, hd⟩) n he
  obtain ⟨-, htick⟩ := timerAt_iterate (rom := s.rom) (sel := sel) hk' (stepsBy_two_pow_neg hk hk' hinc)
    (timerAt_zero hinit hphase _) n
  exact ⟨t, hrun, hregs ▸ htick hn⟩

/-! ### The increment 2^-25 -/

theorem stepsBy_two_pow_neg_25 {p : Ports} {sr : F32} (h : div32 p.clockRate sr = 0x33000000#32) :
    StepsBy p sr 0x33000000#32 124 :=
  ⟨h, (phaseInUnit_iff _).mpr (by decide), by decide, by decide⟩

/-- At 0.5 the sum is a tie that rounds back: the phase holds and nothing ticks (40_sample_step.md R79). -/
theorem TimerAt.stall {rom : Vector F32 5} {p : Ports} {sel : BitVec 4} {r : Regs} {sr : F32}
    (h : TimerAt sr 124 (2 ^ 24) r) (hp : StepsBy p sr 0x33000000#32 124) :
    TimerAt sr 124 (2 ^ 24) (sampleRegs rom p sel r) ∧ getFlag (sampleRegs rom p sel r).status .tick = false := by
  have hhalf : r.phase = 0x3F000000#32 := by
    have hunits : unitsOf r.phase.toNat = unitsOf (0x3F000000#32).toNat := by
      have hplace := h.place
      rw [units32_of_sign_clear (((phaseInUnit_iff _).mp h.phase).trans (by decide))] at hplace
      exact (Nat.cast_inj.mp hplace).trans (by decide)
    exact BitVec.eq_of_toNat_eq (unitsOf_strictMono.injective hunits)
  have hsum : add32 r.phase 0x33000000#32 = r.phase := by
    rw [hhalf]
    decide
  have hheld : wrappedPhase 0x33000000#32 r = r.phase := (wrappedPhase_of_lt (hsum.symm ▸ h.phase)).trans hsum
  obtain ⟨hnext, htick⟩ := h.sample (rom := rom) (sel := sel) hp (hheld.symm ▸ h.phase) (hheld.symm ▸ h.place)
  exact ⟨hnext, htick.trans (hsum.symm ▸ h.phase.not_ge_one)⟩

/-- The phase counts up to 0.5, `2^24` increments, and stays there. -/
theorem timerAt_iterate_stalls {rom : Vector F32 5} {p : Ports} {sel : BitVec 4} {r : Regs} {sr : F32}
    (hp : StepsBy p sr 0x33000000#32 124) (h : TimerAt sr 124 0 r) (n : Nat) :
    (∃ m ≤ 2 ^ 24, TimerAt sr 124 m ((sampleRegs rom p sel)^[n] r)) ∧
      (1 ≤ n → getFlag ((sampleRegs rom p sel)^[n] r).status .tick = false) := by
  induction n with
  | zero => exact ⟨⟨0, by decide, h⟩, fun hn => absurd hn (by decide)⟩
  | succ n ih =>
    obtain ⟨⟨m, hm, hat⟩, -⟩ := ih
    rw [Function.iterate_succ_apply']
    obtain hlt | rfl := Nat.lt_or_eq_of_le hm
    · have hbelow : (m + 1) * 2 ^ 124 < unitsOf one32.toNat := by
        rw [unitsOf_one32]
        omega
      obtain ⟨hnext, htick⟩ := hat.advance (rom := rom) (sel := sel) hp hlt hbelow
      exact ⟨⟨m + 1, hlt, hnext⟩, fun _ => htick⟩
    · obtain ⟨hnext, htick⟩ := hat.stall (rom := rom) (sel := sel) hp
      exact ⟨⟨2 ^ 24, le_rfl, hnext⟩, fun _ => htick⟩

/-- Settles O30: the run is SAMPLE iterated, and the phase stalls at 0.5 (`timerAt_iterate_stalls`). -/
theorem incrementTwoToMinus25NeverTicks : Obligations.IncrementTwoToMinus25NeverTicks := by
  intro n s p sel data hn he hrst hvalid hd hinit hphase hinc
  obtain ⟨t, hrun, hregs⟩ := run_samples ((p.accepted_eq_some_iff _).mpr ⟨⟨hrst, hvalid⟩, hd⟩) n he
  obtain ⟨-, htick⟩ := timerAt_iterate_stalls (rom := s.rom) (sel := sel) (stepsBy_two_pow_neg_25 hinc)
    (timerAt_zero hinit hphase _) n
  exact ⟨t, hrun, hregs ▸ htick hn⟩

end Sys2Proof.Machine
end
